-- ==== Sys2Proof/Word.lean ====
section
/-!
DEFINITION. The block's words: every transfer at its interface and every storage word is one 32-bit word
(00_scope.md R6, 20_memory.md R53), and a command names handles by 8-bit indices (30_encoding.md R81).
-/

namespace Sys2Proof

/-- A 32-bit word: a command word, an extension word, a word of a magnitude, STATUS, RESULT, FREE. -/
abbrev Word := BitVec 32

/-- One byte of a word, as a byte-addressed bus adapter sees it (20_memory.md R52). -/
abbrev Byte := BitVec 8

/-- An 8-bit handle index field, XD, XA or XB (30_encoding.md R81, R85). -/
abbrev Index := BitVec 8

end Sys2Proof
end

