-- ==== Sys2Proof/Machine/Arith.lean ====
section
/-!
DEFINITION. The arithmetic primitives of 00_scope.md R10 and R11 and the word layout of 20_memory.md R51, on unbounded integers.
-/

namespace Sys2Proof.Machine

/-- `ceil(a / b)` (00_scope.md R10). -/
def ceilDiv (a b : Nat) : Nat :=
  (a + b - 1) / b

/-- The words that `nbits` bits take: `ceil(nbits / 32)`. -/
def wordsFor (nbits : Nat) : Nat :=
  ceilDiv nbits 32

/-- The least multiple of the quantum `q` that is at least `n` (20_memory.md R61). -/
def roundUp (n q : Nat) : Nat :=
  ceilDiv n q * q

/-- The bit length of a natural number (00_scope.md R11). -/
def bitlen (v : Nat) : Nat :=
  if v = 0 then 0 else Nat.log2 v + 1

/-- The word of bits `32 i + 31 : 32 i` of a magnitude (20_memory.md R51). -/
def wordAt (mag i : Nat) : Word :=
  BitVec.ofNat 32 (mag / 2 ^ (32 * i))

/-- A 32-bit field read as signed (00_scope.md R10). -/
def sint32 (v : Word) : Int :=
  if v.toNat < 2 ^ 31 then v.toNat else (v.toNat : Int) - 2 ^ 32

/-- The 32-bit word `i mod 2^32` (00_scope.md R10). -/
def enc32 (i : Int) : Word :=
  BitVec.ofInt 32 i

end Sys2Proof.Machine
end

