-- ==== Sys2Proof/Machine/Flags.lean ====
section
/-!
DEFINITION. Every carry, borrow, comparison and status computation of the spec: the ripple-carry and ripple-borrow arithmetic of
41_arithmetic.md R142, R159, R164, the magnitude comparison of 42_compare.md R185, and the fields of STATUS (10_state.md R30).

The block has no flags that outlive a command (10_state.md R33): the carry and the borrow below are arguments of the recursion over the
words. Each recursion takes the number of words left, works on the lowest word and goes on with the words above it.
-/

namespace Sys2Proof.Machine

/-- `AddMag` of R142 from carry `c`: the sum of the lowest `n` words of `x` and `y`, with the carry out as bit `32 n`. -/
def addMag : Nat → Nat → Nat → Bool → Nat
  | 0, _, _, c => c.toNat
  | n + 1, x, y, c =>
    let t := x % 2 ^ 32 + y % 2 ^ 32 + c.toNat
    t % 2 ^ 32 + 2 ^ 32 * addMag n (x / 2 ^ 32) (y / 2 ^ 32) (decide (2 ^ 32 ≤ t))

/-- `SubMag` of R159 from borrow `w`: the difference of the lowest `n` words of `x` and `y`, each word modulo `2^32`. -/
def subMag : Nat → Nat → Nat → Bool → Nat
  | 0, _, _, _ => 0
  | n + 1, x, y, w =>
    let t : Int := (x % 2 ^ 32 : Nat) - (y % 2 ^ 32 : Nat) - w.toNat
    (t % 2 ^ 32).toNat + 2 ^ 32 * subMag n (x / 2 ^ 32) (y / 2 ^ 32) (decide (t < 0))

/-- The ripple-carry increment of R164 over the lowest `n` words of `x`: a word of ones wraps to zero and carries on, any other
word takes the carry and ends the ripple; a carry out of the last word becomes bit `32 n`. -/
def incMag : Nat → Nat → Nat
  | 0, _ => 1
  | n + 1, x => if x % 2 ^ 32 = 2 ^ 32 - 1 then 2 ^ 32 * incMag n (x / 2 ^ 32) else x + 1

/-- The words of `x` and `y` compared from word `n - 1` down to word 0 (the loop of R185). -/
def cmpWords : Nat → Nat → Nat → Int
  | 0, _, _ => 0
  | n + 1, x, y =>
    if wordAt y n < wordAt x n then 1
    else if wordAt x n < wordAt y n then -1
    else cmpWords n x y

/-- `CmpMag` of R185 on magnitudes `x`, `y` with bit lengths `nx`, `ny`: the bit lengths first, then the words from the top. -/
def cmpMag (nx x ny y : Nat) : Int :=
  if ny < nx then 1
  else if nx < ny then -1
  else cmpWords (wordsFor nx) x y

/-! ## STATUS (10_state.md R30, 60_exceptions.md R210) -/

/-- The status codes (60_exceptions.md R210). -/
inductive Code where
  | ok
  | outOfMemory
  | invalidArgument
  | illegalCommand
  deriving DecidableEq, Repr

/-- The value of STATUS.CODE for each code (60_exceptions.md R210). -/
def Code.value : Code → BitVec 4
  | .ok => 0
  | .outOfMemory => 1
  | .invalidArgument => 2
  | .illegalCommand => 3

/-- STATUS.CODE, bits 3:0. -/
def statusCode (w : Word) : BitVec 4 :=
  w.extractLsb' 0 4

/-- STATUS.STICKY, bit 8. -/
def statusSticky (w : Word) : Bool :=
  w.getLsbD 8

/-- The word of STATUS with the given fields; every other bit is hardwired 0 (10_state.md R30). -/
def statusWord (c : Code) (sticky : Bool) : Word :=
  ((0 : BitVec 23) ++ BitVec.ofBool sticky ++ (0 : BitVec 4) ++ c.value).cast rfl

end Sys2Proof.Machine
end

