-- ==== Sys2Proof/Config.lean ====
section
/-!
DEFINITION. The parameters of 00_scope.md R7, their constraints (R7, R8), and the free values of the model.

The parameters are fixed when the block is built (70_reset_and_hazards.md R243). They stand in the state's field `cfg`, which no
step changes, so a statement over all states is a statement over all parameters (log entry 1).
-/

namespace Sys2Proof

/-- How the allocation oracle `Grant` answers (00_scope.md R7, R14; 20_memory.md R60; log entry 2). -/
inductive GrantPolicy where
  /-- Every request that fits MAX_WORDS and FREE is granted: the default of R7. -/
  | always
  /-- Any answer may come: the answers are the free values `Config.freeGrant`. -/
  | oracle
  deriving DecidableEq, Repr

/-- The open parameter BUS_BYTE_ORDER of a byte-addressed bus adapter (20_memory.md R52). -/
inductive ByteOrder where
  | little
  | big
  deriving DecidableEq, Repr

/-- The parameters of 00_scope.md R7. -/
structure Config where
  /-- NREG, the number of handles. -/
  nreg : Nat
  /-- Q, the allocation quantum in words. -/
  quantum : Nat
  /-- INLINE_WORDS, the capacity of a handle's inline buffer in words. -/
  inlineWords : Nat
  /-- MAX_WORDS, the largest capacity of one handle in words. -/
  maxWords : Nat
  /-- POOL_WORDS, the words of the shared allocator pool. -/
  poolWords : Nat
  /-- Grant, the allocation oracle. -/
  grant : GrantPolicy
  /-- BUS_BYTE_ORDER of the bus adapter, if one is attached; the core does not depend on it. -/
  busByteOrder : Option ByteOrder
  deriving DecidableEq, Repr

/-- The constraints of 00_scope.md R7 and R8. -/
def Config.legal (c : Config) : Bool :=
  decide (1 ≤ c.nreg) && decide (c.nreg ≤ 256) &&
  decide (1 ≤ c.quantum) &&
  decide (c.quantum ≤ c.inlineWords) && decide (c.inlineWords % c.quantum = 0) &&
  decide (c.maxWords % c.quantum = 0) && decide (c.inlineWords ≤ c.maxWords) && decide (32 * c.maxWords ≤ 2 ^ 32 - 1) &&
  decide (c.poolWords ≤ 2 ^ 32 - 1)

/-- The parameters are a configuration of this hardware (00_scope.md R8). -/
abbrev Config.Legal (c : Config) : Prop :=
  c.legal = true

/-- The defaults of 00_scope.md R7, the configuration TC1 of 95_test_vectors.md. -/
def Config.default : Config :=
  { nreg := 16, quantum := 4, inlineWords := 4, maxWords := 134217724, poolWords := 1048576,
    grant := .always, busByteOrder := none }

/-- FREE VALUE (log entry 2): the oracle's answer to the request numbered `turn`, for `n` words
(00_scope.md R14: any function of the history; 20_memory.md R60). -/
opaque Config.freeGrant (turn n : Nat) : Bool

/-- FREE VALUE (log entry 3): the number from which the destination's magnitude is drawn after a failed ADD, SUB, ADDABS
or SUBABS (41_arithmetic.md R146: any value below `2^(32 * cap)`; the operation takes this number modulo that bound). -/
opaque Config.freeMagnitude (turn : Nat) : Nat

/-- FREE VALUE (log entry 3): the sign drawn beside `Config.freeMagnitude` (41_arithmetic.md R146), `true` for `-`. -/
opaque Config.freeSign (turn : Nat) : Bool

end Sys2Proof
end

