-- ==== Sys2Proof/Syntax.lean ====
section
/-!
DEFINITION. The commands of the block, one constructor per row of spec/opcode_table.json (30_encoding.md R83, R86), and the
pseudo-instructions of 30_encoding.md R92.

Operands are named as the spec names them: `d` is XD, `a` is XA, `b` is XB, `ext` is the extension word (R81, R82). The extension
word is kept as it was sent; each meaning reads it as 30_encoding.md R84 says.
-/

namespace Sys2Proof

/-- A command (30_encoding.md R86). -/
inductive Instr where
  | init    (d : Index)
  | destroy (d : Index)
  | grow    (d : Index) (ext : Word)
  | zero    (d : Index)
  | seti    (d : Index) (ext : Word)
  | copy    (d a : Index)
  | add     (d a b : Index)
  | sub     (d a b : Index)
  | addabs  (d a b : Index)
  | subabs  (d a b : Index)
  | incabs  (d : Index)
  | cmp     (a b : Index)
  | cmpabs  (a b : Index)
  | qmsb    (a : Index)
  | qneg    (a : Index)
  | qcap    (a : Index)
  | qword   (a : Index) (ext : Word)
  | qstate  (a : Index)
  | qfree
  deriving DecidableEq, Repr

/-- The handle fields a command's format uses, in the order XD, XA, XB (30_encoding.md R83). -/
def Instr.handles : Instr → List Index
  | .init d => [d]
  | .destroy d => [d]
  | .grow d _ => [d]
  | .zero d => [d]
  | .seti d _ => [d]
  | .copy d a => [d, a]
  | .add d a b => [d, a, b]
  | .sub d a b => [d, a, b]
  | .addabs d a b => [d, a, b]
  | .subabs d a b => [d, a, b]
  | .incabs d => [d]
  | .cmp a b => [a, b]
  | .cmpabs a b => [a, b]
  | .qmsb a => [a]
  | .qneg a => [a]
  | .qcap a => [a]
  | .qword a _ => [a]
  | .qstate a => [a]
  | .qfree => []

/-- The destination handle of a command, if its format has one: the field XD (30_encoding.md R81, R83). -/
def Instr.dest : Instr → Option Index
  | .init d => some d
  | .destroy d => some d
  | .grow d _ => some d
  | .zero d => some d
  | .seti d _ => some d
  | .copy d _ => some d
  | .add d _ _ => some d
  | .sub d _ _ => some d
  | .addabs d _ _ => some d
  | .subabs d _ _ => some d
  | .incabs d => some d
  | .cmp _ _ => none
  | .cmpabs _ _ => none
  | .qmsb _ => none
  | .qneg _ => none
  | .qcap _ => none
  | .qword _ _ => none
  | .qstate _ => none
  | .qfree => none

/-- The commands that return a result when they end with OK (10_state.md R31). -/
def Instr.returnsResult : Instr → Bool
  | .init _ => false
  | .destroy _ => false
  | .grow _ _ => false
  | .zero _ => false
  | .seti _ _ => false
  | .copy _ _ => false
  | .add _ _ _ => false
  | .sub _ _ _ => false
  | .addabs _ _ _ => false
  | .subabs _ _ _ => false
  | .incabs _ => false
  | .cmp _ _ => true
  | .cmpabs _ _ => true
  | .qmsb _ => true
  | .qneg _ => true
  | .qcap _ => true
  | .qword _ _ => true
  | .qstate _ => true
  | .qfree => true

/-- The pseudo-instructions of 30_encoding.md R92. -/
inductive Pseudo where
  | mov (d a : Index)
  | clr (d : Index)
  | li  (d : Index) (ext : Word)
  | dbl (d a : Index)
  deriving DecidableEq, Repr

/-- The command an assembler emits for a pseudo-instruction (30_encoding.md R92). -/
def Pseudo.expand : Pseudo → Instr
  | .mov d a => .copy d a
  | .clr d => .zero d
  | .li d ext => .seti d ext
  | .dbl d a => .add d a a

end Sys2Proof
end

