-- ==== Sys2Proof/Machine/State.lean ====
section
/-!
DEFINITION. The state of the block and of its host, as plain data (10_state.md, 70_reset_and_hazards.md), and the state after reset.
-/

namespace Sys2Proof.Machine

/-- Which buffer backs a handle's magnitude (10_state.md R21). -/
inductive Kind where
  /-- UNINIT, coded 0: no buffer. -/
  | uninit
  /-- INLINE, coded 1: the handle's inline buffer. -/
  | inlined
  /-- HEAP, coded 2: a buffer of the allocator pool. -/
  | heap
  deriving DecidableEq, Repr

/-- The record of one handle (10_state.md R21). -/
structure Handle where
  /-- Which buffer backs the magnitude. -/
  kind : Kind
  /-- Capacity in words. -/
  cap : Nat
  /-- The magnitude: the number its `cap` words spell, least significant word first (20_memory.md R51). -/
  mag : Nat
  /-- Significant bits, the cached bit length of `mag` (R25, R36). -/
  msb : Word
  /-- Sign flag, `true` for negative. -/
  neg : Bool
  /-- The value is indeterminate after a failed add or subtract (R27). -/
  indet : Bool
  /-- The number the inline buffer's words spell while that buffer does not back the magnitude, that is while the kind is UNINIT
  or HEAP (R34); 0 in an INLINE handle, whose inline words are `mag`. No command reads it. -/
  inlineBuf : Nat
  deriving DecidableEq, Repr

/-- The record of every handle after reset (70_reset_and_hazards.md R240). The spec leaves the inline words unspecified there; the model
names 0 (DESIGN CHOICE, log entry 5). -/
def Handle.reset : Handle :=
  { kind := .uninit, cap := 0, mag := 0, msb := 0, neg := false, indet := false, inlineBuf := 0 }

/-- The command interface (70_reset_and_hazards.md R240, R250, R256, R257). -/
inductive Port where
  /-- Idle: no partial command held and no response presented. -/
  | idle
  /-- A two-word command's command word has been presented and its extension word has not (R256). -/
  | awaitExt (w : Word)
  /-- The response of the last command, STATUS and RESULT, is presented (R257). -/
  | responding
  deriving DecidableEq, Repr

/-- The whole state: the parameters, the block, its command interface and the host that drives it. -/
structure State where
  /-- The parameters of 00_scope.md R7, which nothing changes (70_reset_and_hazards.md R243). -/
  cfg : Config
  /-- The handle file, NREG records (10_state.md R20, R21). -/
  handles : List Handle
  /-- FREE: the words of the allocator pool no heap buffer holds (10_state.md R32). -/
  free : Word
  /-- STATUS (10_state.md R30). -/
  status : Word
  /-- RESULT (10_state.md R31). -/
  result : Word
  /-- The command interface. -/
  port : Port
  /-- The host program (70_reset_and_hazards.md R251). -/
  program : List Word
  /-- The host's command pointer, a word index into `program` (00_scope.md R15). -/
  pc : Nat
  /-- The host has asserted reset and the block has not taken it yet (70_reset_and_hazards.md R242, R258). -/
  resetRequest : Bool
  /-- The model's own counter: the number of the next free value (log entry 4). -/
  turn : Nat
  deriving DecidableEq, Repr

/-- The block has no faults: every error is a status code and no status transfers control (60_exceptions.md R219;
93_implementation_defined.md, section 1). So no step raises one, and there is none to name. -/
inductive Fault where
  deriving DecidableEq, Repr

/-- Why a step has no next state. -/
inductive Refusal where
  /-- Raised by an arm of `exec` whose instruction has no meaning yet; safe. -/
  | notModelled (mnemonic : String)
  /-- Raised by `step` in a state whose parameters break a constraint of 00_scope.md R7: it is not a configuration of this
  hardware and the model refuses it (R8); safe. -/
  | illegalConfiguration
  deriving DecidableEq, Repr

/-- The state after reset of a block built with the parameters `c` (70_reset_and_hazards.md R240), with a host that has no
program yet (DESIGN CHOICE, log entries 4, 6, 7). -/
def State.resetWith (c : Config) : State :=
  { cfg := c, handles := List.replicate c.nreg Handle.reset, free := BitVec.ofNat 32 c.poolWords, status := 0, result := 0,
    port := .idle, program := [], pc := 0, resetRequest := false, turn := 0 }

/-- The state after reset with the default parameters (70_reset_and_hazards.md R240, 00_scope.md R7). -/
def State.reset : State :=
  State.resetWith Config.default

end Sys2Proof.Machine
end

