-- ==== Sys2Proof/WellFormed.lean ====
section
/-!
DEFINITION. When a command names only handles that exist (30_encoding.md R85, 60_exceptions.md R212).

Every other property of a command's operands is in its type: an index is 8 bits, an extension word 32, and a field the format does
not use is no operand at all. An ill-formed command still decodes and still runs: the block answers it with INVALID_ARGUMENT
(30_encoding.md R85, R91).
-/

namespace Sys2Proof

/-- A handle index names a handle when it is below NREG (10_state.md R20). -/
def Config.names (c : Config) (i : Index) : Bool :=
  decide (i.toNat < c.nreg)

/-- Every handle field the command's format uses names a handle (60_exceptions.md R212). -/
def Instr.wf (c : Config) (i : Instr) : Bool :=
  i.handles.all c.names

end Sys2Proof
end

