-- ==== Sys2Proof/Machine/Ops.lean ====
section
/-!
DEFINITION. The named operations the meanings are built from: reading and writing a handle, ending a command (00_scope.md R13), the checks of
60_exceptions.md R212 and R213, the growth step (20_memory.md R59), the result write (41_arithmetic.md R141), the weak failure
(R146), an illegal command (60_exceptions.md R211), and reset (70_reset_and_hazards.md R240).

The block takes no exceptions and has no return from one (60_exceptions.md R219): `State.raise` is the one operation by which every
error is reported.
-/

namespace Sys2Proof.Machine

/-! ## Handles -/

/-- The record of handle `i` (00_scope.md R12, `H[i]`). An index that names no handle has the record of an UNINIT one; every command
checks its indices first (60_exceptions.md R212). -/
def State.handle (s : State) (i : Index) : Handle :=
  s.handles.getD i.toNat Handle.reset

/-- Write the record of handle `i` (00_scope.md R12). -/
def State.setHandle (s : State) (i : Index) (h : Handle) : State :=
  { s with handles := s.handles.set i.toNat h }

/-- Set FREE (10_state.md R32). -/
def State.setFree (s : State) (w : Word) : State :=
  { s with free := w }

/-- A handle just initialized: the canonical zero with inline backing, every inline word 0 (40_lifecycle.md R100, R107). -/
def Handle.fresh (c : Config) : Handle :=
  { kind := .inlined, cap := c.inlineWords, mag := 0, msb := 0, neg := false, indet := false, inlineBuf := 0 }

/-- The canonical zero in the storage the handle has (40_lifecycle.md R111, R112). -/
def Handle.cleared (h : Handle) : Handle :=
  { h with mag := 0, msb := 0, neg := false, indet := false }

/-- A handle destroyed: UNINIT, and the inline buffer of an initialized handle scrubbed (40_lifecycle.md R103, R105). -/
def Handle.destroyed (h : Handle) : Handle :=
  { kind := .uninit, cap := 0, mag := 0, msb := 0, neg := false, indet := false,
    inlineBuf := if h.kind = .uninit then h.inlineBuf else 0 }

/-- `write` of 41_arithmetic.md R141: the magnitude `m` with sign `neg`, canonical zero, determinate. -/
def Handle.store (h : Handle) (m : Nat) (neg : Bool) : Handle :=
  { h with mag := m, msb := BitVec.ofNat 32 (bitlen m), neg := neg && decide (m ≠ 0), indet := false }

/-- A handle whose magnitude moves to a new heap buffer of `n` words: the value is kept, and an inline buffer left behind keeps its words
(20_memory.md R61, R62; 10_state.md R34). -/
def Handle.grown (h : Handle) (n : Nat) : Handle :=
  { h with kind := .heap, cap := n, inlineBuf := if h.kind = .inlined then h.mag else h.inlineBuf }

/-- The record of the destination of a weak failure: the magnitude and the sign are a draw, reduced to what the capacity holds and what the
invariants allow, and the handle is indeterminate (41_arithmetic.md R146, log entry 3). -/
def Handle.drawn (h : Handle) (turn : Nat) : Handle :=
  { h.store (Config.freeMagnitude turn % 2 ^ (32 * h.cap)) (Config.freeSign turn) with indet := true }

/-- The heap words a handle holds (10_state.md R32). -/
def Handle.heapWords (h : Handle) : Nat :=
  if h.kind = .heap then h.cap else 0

/-! ## Ending a command (00_scope.md R13) -/

/-- `finish(code, result)`: STATUS.CODE is the code, STICKY is set by a code other than OK and kept otherwise, RESULT is the result
(10_state.md R30, R31; 60_exceptions.md R218). -/
def State.finish (s : State) (c : Code) (r : Word) : State :=
  { s with status := statusWord c (statusSticky s.status || decide (c ≠ .ok)), result := r }

/-- `raise E`, which is `finish(E, 0)`: the one report of every error (00_scope.md R13, 60_exceptions.md R210, R219). -/
def State.raise (s : State) (c : Code) : State :=
  s.finish c 0

/-- A command word the decoder rejects: ILLEGAL_COMMAND and no other effect (60_exceptions.md R211). -/
def State.illegal (s : State) : State :=
  s.raise .illegalCommand

/-! ## Checks -/

/-- The index check fails: some used handle field names no handle (60_exceptions.md R212). -/
def State.badIndex (s : State) (is : List Index) : Bool :=
  !is.all s.cfg.names

/-- `need_init` passes (60_exceptions.md R213). -/
def State.initialized (s : State) (i : Index) : Bool :=
  decide ((s.handle i).kind ≠ .uninit)

/-- `need_value` passes (60_exceptions.md R213). -/
def State.readable (s : State) (i : Index) : Bool :=
  s.initialized i && !(s.handle i).indet

/-! ## The allocator (20_memory.md R58 to R65) -/

/-- The oracle's answer to a request for `n` words (20_memory.md R60). -/
def State.granted (s : State) (n : Nat) : Bool :=
  match s.cfg.grant with
  | .always => true
  | .oracle => Config.freeGrant s.turn n

/-- The next free value is another one (log entry 4). -/
def State.nextTurn (s : State) : State :=
  { s with turn := s.turn + 1 }

/-- Install a heap buffer of `n` words in handle `i`: FREE loses the new buffer and then gains the old heap buffer (20_memory.md R59, R61,
R62). -/
def State.install (s : State) (i : Index) (n : Nat) : State :=
  (s.setHandle i ((s.handle i).grown n)).setFree (s.free - BitVec.ofNat 32 n + BitVec.ofNat 32 (s.handle i).heapWords)

/-- How the growth step ends (20_memory.md R59). -/
inductive Growth where
  | ok (s : State)
  | oom (s : State)
  deriving DecidableEq, Repr

/-- The words the growth step asks for (20_memory.md R61). -/
def growWords (c : Config) (nbits : Nat) : Nat :=
  roundUp (wordsFor nbits) c.quantum

/-- `Grow(i, nbits)` (20_memory.md R59), for an initialized handle. A request that reaches the oracle uses one free value. -/
def State.grow (s : State) (i : Index) (nbits : Nat) : Growth :=
  if wordsFor nbits ≤ (s.handle i).cap then .ok s
  else if s.cfg.maxWords < growWords s.cfg nbits ∨ s.free.toNat < growWords s.cfg nbits then .oom s
  else if s.granted (growWords s.cfg nbits) then .ok (s.nextTurn.install i (growWords s.cfg nbits))
  else .oom s.nextTurn

/-! ## Results -/

/-- Install a result in handle `i` and end with OK (41_arithmetic.md R141). -/
def State.writeResult (s : State) (i : Index) (m : Nat) (neg : Bool) : State :=
  (s.setHandle i ((s.handle i).store m neg)).finish .ok 0

/-- `fail_weak(i)` (41_arithmetic.md R146): the value of handle `i` becomes a draw that keeps the invariants, the handle is indeterminate, and
the command ends with OUT_OF_MEMORY (log entry 3). -/
def State.failWeak (s : State) (i : Index) : State :=
  ((s.setHandle i ((s.handle i).drawn s.turn)).nextTurn).raise .outOfMemory

/-! ## Reset (70_reset_and_hazards.md R240, R242, R243) -/

/-- The block takes the reset its host asserts: the block is in the state of R240, whatever command it held, and the parameters stay.
The host's program and command pointer are the host's own (log entry 7). -/
def State.takeReset (s : State) : State :=
  { s with
    handles := List.replicate s.cfg.nreg Handle.reset
    free := BitVec.ofNat 32 s.cfg.poolWords
    status := 0
    result := 0
    port := .idle
    resetRequest := false }

end Sys2Proof.Machine
end

