-- ==== Sys2Proof/Machine/Operands.lean ====
section
/-!
DEFINITION. Operand forms: the snapshot an arithmetic or comparison command takes of a source handle (41_arithmetic.md R140), signs
(00_scope.md R16), and the readings of the extension word (30_encoding.md R84).
-/

namespace Sys2Proof.Machine

/-- What a command reads of a source handle before it writes anything (41_arithmetic.md R140). -/
structure Operand where
  /-- `H[h].mag`. -/
  mag : Nat
  /-- `H[h].msb`, as the exact number of 00_scope.md R9. -/
  len : Nat
  /-- `sgn(h)`, `true` for `-` (00_scope.md R16). -/
  neg : Bool
  deriving DecidableEq, Repr

/-- The snapshot of a handle's record. -/
def Handle.operand (h : Handle) : Operand :=
  { mag := h.mag, len := h.msb.toNat, neg := h.neg }

/-- The snapshot of handle `i`. -/
def State.operand (s : State) (i : Index) : Operand :=
  (s.handle i).operand

/-- The operand with its sign flipped, a zero's too (00_scope.md R16, 41_arithmetic.md R150). -/
def Operand.flip (x : Operand) : Operand :=
  { x with neg := !x.neg }

/-- The bits a magnitude add asks for: the longer operand and one bit for the carry out (41_arithmetic.md R145). -/
def addBits (x y : Operand) : Nat :=
  max x.len y.len + 1

/-- The bits a magnitude subtract asks for: the longer operand (41_arithmetic.md R145). -/
def subBits (x y : Operand) : Nat :=
  max x.len y.len

/-- `|x| + |y|` by ripple carry over the words of R142. -/
def sumMag (x y : Operand) : Nat :=
  addMag (wordsFor (addBits x y)) x.mag y.mag false

/-- `||x| - |y||` by ripple borrow, the smaller magnitude from the larger (41_arithmetic.md R159). -/
def diffMag (x y : Operand) : Nat :=
  subMag (wordsFor (subBits x y)) (max x.mag y.mag) (min x.mag y.mag) false

/-- The order of the magnitudes (42_compare.md R185). -/
def Operand.cmpAbs (x y : Operand) : Int :=
  cmpMag x.len x.mag y.len y.mag

/-- The order of the signed values: the signs first, then the magnitudes, reversed when both are negative (42_compare.md R181). -/
def Operand.cmp (x y : Operand) : Int :=
  if x.neg = false ∧ y.neg = true then 1
  else if x.neg = true ∧ y.neg = false then -1
  else if x.neg = false then x.cmpAbs y
  else -(x.cmpAbs y)

/-- `min_bits = zext_32(EXT)` of GROW and `index = zext_32(EXT)` of QWORD (30_encoding.md R84). -/
def extUnsigned (ext : Word) : Nat :=
  ext.toNat

/-- `z = sint32(EXT)` of SETI (30_encoding.md R84). -/
def extSigned (ext : Word) : Int :=
  sint32 ext

/-- The two bits QSTATE gives for a kind (43_query.md R198). -/
def Kind.value : Kind → BitVec 2
  | .uninit => 0
  | .inlined => 1
  | .heap => 2

/-- The result of QSTATE: bit 2 the indeterminate flag, bits 1:0 the kind (43_query.md R198). -/
def Handle.stateWord (h : Handle) : Word :=
  ((0 : BitVec 29) ++ BitVec.ofBool h.indet ++ h.kind.value).cast rfl

end Sys2Proof.Machine
end

