-- ==== Sys2Proof/Machine/Arithmetic.lean ====
section
/-!
DEFINITION. The arithmetic commands: ADD, SUB, ADDABS, SUBABS, INCABS (41_arithmetic.md).
-/

namespace Sys2Proof.Machine

/-- The growth step and the result write of the four commands that fail weakly: ask for `nbits` bits in `d`, then write the magnitude `m`
with sign `neg` (R143, R145, R146). -/
def State.growWrite (s : State) (d : Index) (nbits m : Nat) (neg : Bool) : State :=
  match s.grow d nbits with
  | .oom t => t.failWeak d
  | .ok t => t.writeResult d m neg

/-- The signed sum of two snapshots into `d`, by the dispatch table of R144: equal signs add the magnitudes, unequal signs subtract them and
take the sign of the larger, and a tie gives the canonical zero (R143, R147). -/
def State.signedSum (s : State) (d : Index) (x y : Operand) : State :=
  if x.neg = y.neg then s.growWrite d (addBits x y) (sumMag x y) x.neg
  else s.growWrite d (subBits x y) (diffMag x y) (if y.mag < x.mag then x.neg else y.neg)

/-- The checks the four three-operand commands share fail: an index, an unreadable source, or an UNINIT destination
(60_exceptions.md R212, R213). -/
def State.arithRefused (s : State) (d a b : Index) : Bool :=
  s.badIndex [d, a, b] || !s.readable a || !s.readable b || !s.initialized d

/-- ADD (R143 to R149). -/
def execAdd (d a b : Index) (s : State) : Host.Outcome State Fault Refusal :=
  .next <|
    if s.arithRefused d a b then s.raise .invalidArgument
    else s.signedSum d (s.operand a) (s.operand b)

/-- SUB (R150, R151, R152). -/
def execSub (d a b : Index) (s : State) : Host.Outcome State Fault Refusal :=
  .next <|
    if s.arithRefused d a b then s.raise .invalidArgument
    else s.signedSum d (s.operand a) (s.operand b).flip

/-- ADDABS (R154, R155, R156). -/
def execAddabs (d a b : Index) (s : State) : Host.Outcome State Fault Refusal :=
  .next <|
    if s.arithRefused d a b then s.raise .invalidArgument
    else s.growWrite d (addBits (s.operand a) (s.operand b)) (sumMag (s.operand a) (s.operand b)) false

/-- SUBABS (R155, R158, R159, R160). -/
def execSubabs (d a b : Index) (s : State) : Host.Outcome State Fault Refusal :=
  .next <|
    if s.arithRefused d a b then s.raise .invalidArgument
    else s.growWrite d (subBits (s.operand a) (s.operand b)) (diffMag (s.operand a) (s.operand b)) false

/-- The record with the magnitude `m` and its bit length, the sign as it was (R164, R165). -/
def Handle.withMag (h : Handle) (m : Nat) : Handle :=
  { h with mag := m, msb := BitVec.ofNat 32 (bitlen m) }

/-- INCABS (R162 to R168). -/
def execIncabs (d : Index) (s : State) : Host.Outcome State Fault Refusal :=
  .next <|
    if s.badIndex [d] then s.raise .invalidArgument
    else if !s.readable d then s.raise .invalidArgument
    else if (s.handle d).msb = 0 then (s.setHandle d ((s.handle d).withMag 1)).finish .ok 0
    else
      match s.grow d ((s.handle d).msb.toNat + 1) with
      | .oom t => t.raise .outOfMemory
      | .ok t =>
        (t.setHandle d ((t.handle d).withMag (incMag (wordsFor (s.handle d).msb.toNat) (s.handle d).mag))).finish .ok 0

end Sys2Proof.Machine
end

