-- ==== Sys2Proof/Machine/Compare.lean ====
section
/-!
DEFINITION. The comparison commands: CMP and CMPABS (42_compare.md). They write only STATUS and RESULT (R183).
-/

namespace Sys2Proof.Machine

/-- The checks the two comparisons share fail (60_exceptions.md R212, R213). -/
def State.compareRefused (s : State) (a b : Index) : Bool :=
  s.badIndex [a, b] || !s.readable a || !s.readable b

/-- CMP (R180, R181, R182). -/
def execCmp (a b : Index) (s : State) : Host.Outcome State Fault Refusal :=
  .next <|
    if s.compareRefused a b then s.raise .invalidArgument
    else s.finish .ok (enc32 ((s.operand a).cmp (s.operand b)))

/-- CMPABS (R180, R184, R185, R186). -/
def execCmpabs (a b : Index) (s : State) : Host.Outcome State Fault Refusal :=
  .next <|
    if s.compareRefused a b then s.raise .invalidArgument
    else s.finish .ok (enc32 ((s.operand a).cmpAbs (s.operand b)))

end Sys2Proof.Machine
end

