-- ==== Sys2Proof/Machine/Lifecycle.lean ====
section
/-!
DEFINITION. The lifecycle and storage commands: INIT, DESTROY, GROW, ZERO, SETI, COPY (40_lifecycle.md).

Each meaning makes the index check (60_exceptions.md R212), then the checks of its own pseudocode, in the order of 60_exceptions.md R215.
-/

namespace Sys2Proof.Machine

/-- INIT (R100, R101). -/
def execInit (d : Index) (s : State) : Host.Outcome State Fault Refusal :=
  .next <|
    if s.badIndex [d] then s.raise .invalidArgument
    else if s.initialized d then s.raise .invalidArgument
    else (s.setHandle d (Handle.fresh s.cfg)).finish .ok 0

/-- DESTROY (R103, R104, R105). -/
def execDestroy (d : Index) (s : State) : Host.Outcome State Fault Refusal :=
  .next <|
    if s.badIndex [d] then s.raise .invalidArgument
    else
      ((s.setHandle d (s.handle d).destroyed).setFree (s.free + BitVec.ofNat 32 (s.handle d).heapWords)).finish .ok 0

/-- The growth step of GROW on an initialized handle, and the end of the command (R106, R108). -/
def State.growCommand (s : State) (d : Index) (nbits : Nat) : State :=
  match s.grow d nbits with
  | .ok t => t.finish .ok 0
  | .oom t => t.raise .outOfMemory

/-- GROW (R106 to R110). -/
def execGrow (d : Index) (ext : Word) (s : State) : Host.Outcome State Fault Refusal :=
  .next <|
    if s.badIndex [d] then s.raise .invalidArgument
    else if !s.initialized d then (s.setHandle d (Handle.fresh s.cfg)).growCommand d (extUnsigned ext)
    else if (s.handle d).indet then s.raise .invalidArgument
    else s.growCommand d (extUnsigned ext)

/-- ZERO (R111, R112, R113, R102). -/
def execZero (d : Index) (s : State) : Host.Outcome State Fault Refusal :=
  .next <|
    if s.badIndex [d] then s.raise .invalidArgument
    else if !s.initialized d then s.raise .invalidArgument
    else (s.setHandle d (s.handle d).cleared).finish .ok 0

/-- SETI (R114 to R117). -/
def execSeti (d : Index) (ext : Word) (s : State) : Host.Outcome State Fault Refusal :=
  .next <|
    if s.badIndex [d] then s.raise .invalidArgument
    else if !s.initialized d then s.raise .invalidArgument
    else s.writeResult d (extSigned ext).natAbs (decide (extSigned ext < 0))

/-- The record `h` with the magnitude, bit length and sign of `src`, in the storage `h` has (R118). -/
def Handle.copied (h src : Handle) : Handle :=
  { h with mag := src.mag, msb := src.msb, neg := src.neg, indet := false }

/-- COPY (R118 to R122). -/
def execCopy (d a : Index) (s : State) : Host.Outcome State Fault Refusal :=
  .next <|
    if s.badIndex [d, a] then s.raise .invalidArgument
    else if !s.readable a then s.raise .invalidArgument
    else if d = a then s.finish .ok 0
    else if !s.initialized d then s.raise .invalidArgument
    else if (s.handle a).msb = 0 then (s.setHandle d (s.handle d).cleared).finish .ok 0
    else
      match s.grow d (s.handle a).msb.toNat with
      | .oom t => t.raise .outOfMemory
      | .ok t => (t.setHandle d ((t.handle d).copied (s.handle a))).finish .ok 0

end Sys2Proof.Machine
end

