-- ==== Sys2Proof/Machine/Query.lean ====
section
/-!
DEFINITION. The query commands: QMSB, QNEG, QCAP, QWORD, QSTATE, QFREE (43_query.md). They write only STATUS and RESULT (R201).
-/

namespace Sys2Proof.Machine

/-- The checks of a query that reads the value of `a` fail (60_exceptions.md R212, R213). -/
def State.queryRefused (s : State) (a : Index) : Bool :=
  s.badIndex [a] || !s.readable a

/-- QMSB (R190, R191). -/
def execQmsb (a : Index) (s : State) : Host.Outcome State Fault Refusal :=
  .next <|
    if s.queryRefused a then s.raise .invalidArgument
    else s.finish .ok (s.handle a).msb

/-- QNEG (R192). -/
def execQneg (a : Index) (s : State) : Host.Outcome State Fault Refusal :=
  .next <|
    if s.queryRefused a then s.raise .invalidArgument
    else s.finish .ok (if (s.handle a).neg then 1 else 0)

/-- QCAP (R194). -/
def execQcap (a : Index) (s : State) : Host.Outcome State Fault Refusal :=
  .next <|
    if s.queryRefused a then s.raise .invalidArgument
    else s.finish .ok (BitVec.ofNat 32 (s.handle a).cap)

/-- QWORD (R196, R197). -/
def execQword (a : Index) (ext : Word) (s : State) : Host.Outcome State Fault Refusal :=
  .next <|
    if s.queryRefused a then s.raise .invalidArgument
    else if (s.handle a).cap ≤ extUnsigned ext then s.raise .invalidArgument
    else s.finish .ok (wordAt (s.handle a).mag (extUnsigned ext))

/-- QSTATE (R198): legal on every handle. -/
def execQstate (a : Index) (s : State) : Host.Outcome State Fault Refusal :=
  .next <|
    if s.badIndex [a] then s.raise .invalidArgument
    else s.finish .ok (s.handle a).stateWord

/-- QFREE (R200). -/
def execQfree (s : State) : Host.Outcome State Fault Refusal :=
  .next (s.finish .ok s.free)

end Sys2Proof.Machine
end

