-- ==== Sys2Proof/Machine/Dispatch.lean ====
section
/-!
DEFINITION. The meaning of every command: one arm per constructor of `Instr`, in the order of the opcode map (30_encoding.md R86).
-/

namespace Sys2Proof.Machine

def exec (i : Instr) (s : State) : Host.Outcome State Fault Refusal :=
  match i with
  | .init d => Sys2Proof.Machine.execInit d s
  | .destroy d => Sys2Proof.Machine.execDestroy d s
  | .grow d ext => Sys2Proof.Machine.execGrow d ext s
  | .zero d => Sys2Proof.Machine.execZero d s
  | .seti d ext => Sys2Proof.Machine.execSeti d ext s
  | .copy d a => Sys2Proof.Machine.execCopy d a s
  | .add d a b => Sys2Proof.Machine.execAdd d a b s
  | .sub d a b => Sys2Proof.Machine.execSub d a b s
  | .addabs d a b => Sys2Proof.Machine.execAddabs d a b s
  | .subabs d a b => Sys2Proof.Machine.execSubabs d a b s
  | .incabs d => Sys2Proof.Machine.execIncabs d s
  | .cmp a b => Sys2Proof.Machine.execCmp a b s
  | .cmpabs a b => Sys2Proof.Machine.execCmpabs a b s
  | .qmsb a => Sys2Proof.Machine.execQmsb a s
  | .qneg a => Sys2Proof.Machine.execQneg a s
  | .qcap a => Sys2Proof.Machine.execQcap a s
  | .qword a ext => Sys2Proof.Machine.execQword a ext s
  | .qstate a => Sys2Proof.Machine.execQstate a s
  | .qfree => Sys2Proof.Machine.execQfree s

end Sys2Proof.Machine
end

