-- ==== Sys2Proof/Decode.lean ====
section
/-!
DEFINITION. Decoding command words and encoding commands (30_encoding.md R80 to R90), and the rows of spec/opcode_table.json.

The decoder takes the words the host presents and answers a command with the words left over, or a rejection by name. It is total:
every list of words has an answer. What the block does with a rejected command word is `State.illegal` of Machine/Ops.lean.
-/

namespace Sys2Proof

/-! ## Fields (R81) -/

/-- OP, bits 31:24. -/
def opField (w : Word) : BitVec 8 := w.extractLsb' 24 8

/-- XD, bits 23:16. -/
def xdField (w : Word) : Index := w.extractLsb' 16 8

/-- XA, bits 15:8. -/
def xaField (w : Word) : Index := w.extractLsb' 8 8

/-- XB, bits 7:0. -/
def xbField (w : Word) : Index := w.extractLsb' 0 8

/-- The command word with the given fields (R81). -/
def commandWord (op : BitVec 8) (xd xa xb : Index) : Word :=
  (op ++ xd ++ xa ++ xb).cast rfl

/-! ## Formats and opcodes (R83, R86) -/

/-- The formats of R83. -/
inductive Format where
  | f0
  | fd
  | fdi
  | fda
  | fdab
  | fab
  | fa
  | fai
  deriving DecidableEq, Repr

/-- XD is one of the format's fields (R83). -/
def Format.usesXD : Format → Bool
  | .f0 => false
  | .fd => true
  | .fdi => true
  | .fda => true
  | .fdab => true
  | .fab => false
  | .fa => false
  | .fai => false

/-- XA is one of the format's fields (R83). -/
def Format.usesXA : Format → Bool
  | .f0 => false
  | .fd => false
  | .fdi => false
  | .fda => true
  | .fdab => true
  | .fab => true
  | .fa => true
  | .fai => true

/-- XB is one of the format's fields (R83). -/
def Format.usesXB : Format → Bool
  | .f0 => false
  | .fd => false
  | .fdi => false
  | .fda => false
  | .fdab => true
  | .fab => true
  | .fa => false
  | .fai => false

/-- The format has an extension word (R83). -/
def Format.usesExt : Format → Bool
  | .f0 => false
  | .fd => false
  | .fdi => true
  | .fda => false
  | .fdab => false
  | .fab => false
  | .fa => false
  | .fai => true

/-- Every field the format does not use is zero in the command word (R87). -/
def Format.reservedZero (f : Format) (w : Word) : Bool :=
  (f.usesXD || xdField w == 0) && (f.usesXA || xaField w == 0) && (f.usesXB || xbField w == 0)

/-- The defined opcodes (R86). -/
inductive Opcode where
  | init
  | destroy
  | grow
  | zero
  | seti
  | copy
  | add
  | sub
  | addabs
  | subabs
  | incabs
  | cmp
  | cmpabs
  | qmsb
  | qneg
  | qcap
  | qword
  | qstate
  | qfree
  deriving DecidableEq, Repr

/-- The value of OP for each opcode (R86). -/
def Opcode.value : Opcode → BitVec 8
  | .init => 0x01
  | .destroy => 0x02
  | .grow => 0x03
  | .zero => 0x04
  | .seti => 0x05
  | .copy => 0x06
  | .add => 0x10
  | .sub => 0x11
  | .addabs => 0x12
  | .subabs => 0x13
  | .incabs => 0x14
  | .cmp => 0x20
  | .cmpabs => 0x21
  | .qmsb => 0x30
  | .qneg => 0x31
  | .qcap => 0x32
  | .qword => 0x33
  | .qstate => 0x34
  | .qfree => 0x35

/-- The defined opcodes, in the order of the opcode map (R86). -/
def Opcode.all : List Opcode :=
  [.init, .destroy, .grow, .zero, .seti, .copy, .add, .sub, .addabs, .subabs, .incabs, .cmp, .cmpabs, .qmsb, .qneg, .qcap,
    .qword, .qstate, .qfree]

/-- The opcode an OP field names; none where the value is reserved (R88). -/
def Opcode.ofField (op : BitVec 8) : Option Opcode :=
  Opcode.all.find? fun o => o.value == op

/-- The format of each opcode (R83, R86). -/
def Opcode.format : Opcode → Format
  | .init => .fd
  | .destroy => .fd
  | .grow => .fdi
  | .zero => .fd
  | .seti => .fdi
  | .copy => .fda
  | .add => .fdab
  | .sub => .fdab
  | .addabs => .fdab
  | .subabs => .fdab
  | .incabs => .fd
  | .cmp => .fab
  | .cmpabs => .fab
  | .qmsb => .fa
  | .qneg => .fa
  | .qcap => .fa
  | .qword => .fai
  | .qstate => .fa
  | .qfree => .f0

/-- The command an opcode, a command word and an extension word spell (R81, R82, R83). -/
def Opcode.build (o : Opcode) (w ext : Word) : Instr :=
  match o with
  | .init => .init (xdField w)
  | .destroy => .destroy (xdField w)
  | .grow => .grow (xdField w) ext
  | .zero => .zero (xdField w)
  | .seti => .seti (xdField w) ext
  | .copy => .copy (xdField w) (xaField w)
  | .add => .add (xdField w) (xaField w) (xbField w)
  | .sub => .sub (xdField w) (xaField w) (xbField w)
  | .addabs => .addabs (xdField w) (xaField w) (xbField w)
  | .subabs => .subabs (xdField w) (xaField w) (xbField w)
  | .incabs => .incabs (xdField w)
  | .cmp => .cmp (xaField w) (xbField w)
  | .cmpabs => .cmpabs (xaField w) (xbField w)
  | .qmsb => .qmsb (xaField w)
  | .qneg => .qneg (xaField w)
  | .qcap => .qcap (xaField w)
  | .qword => .qword (xaField w) ext
  | .qstate => .qstate (xaField w)
  | .qfree => .qfree

/-! ## Decoding (R88, R89, R90) -/

/-- Why a list of words is not one legal command. -/
inductive DecodeError where
  /-- There is no word at all. -/
  | noWord
  /-- A two-word command without its extension word (R89): the block waits for it. -/
  | truncated
  /-- The OP field is reserved (R88). -/
  | reservedOpcode
  /-- A field the format does not use is not zero (R87). -/
  | reservedField
  deriving DecidableEq, Repr

/-- The number of words of the command that a command word begins, by OP alone, legal or not (R80, R89). -/
def commandLength (w : Word) : Nat :=
  if opField w = 0x03 ∨ opField w = 0x05 ∨ opField w = 0x33 then 2 else 1

/-- Decode a command word with its extension word; the extension word of a one-word command is not read (R86, R87, R88). -/
def decodeCommand (w ext : Word) : Except DecodeError Instr :=
  match Opcode.ofField (opField w) with
  | none => .error .reservedOpcode
  | some o => if o.format.reservedZero w then .ok (o.build w ext) else .error .reservedField

/-- Decode the first command of a list of words, with the words after it (R89, R90). -/
def decode : List Word → Except DecodeError (Instr × List Word)
  | [] => .error .noWord
  | w :: rest =>
    if commandLength w = 1 then
      match decodeCommand w 0 with
      | .ok i => .ok (i, rest)
      | .error e => .error e
    else
      match rest with
      | [] => .error .truncated
      | ext :: rest' =>
        match decodeCommand w ext with
        | .ok i => .ok (i, rest')
        | .error e => .error e

/-! ## Encoding (R81, R82, R83) -/

/-- The opcode of a command. -/
def Instr.opcode : Instr → Opcode
  | .init _ => .init
  | .destroy _ => .destroy
  | .grow _ _ => .grow
  | .zero _ => .zero
  | .seti _ _ => .seti
  | .copy _ _ => .copy
  | .add _ _ _ => .add
  | .sub _ _ _ => .sub
  | .addabs _ _ _ => .addabs
  | .subabs _ _ _ => .subabs
  | .incabs _ => .incabs
  | .cmp _ _ => .cmp
  | .cmpabs _ _ => .cmpabs
  | .qmsb _ => .qmsb
  | .qneg _ => .qneg
  | .qcap _ => .qcap
  | .qword _ _ => .qword
  | .qstate _ => .qstate
  | .qfree => .qfree

/-- The words of a command: its command word, with every unused field zero, and its extension word if it has one. -/
def encode : Instr → List Word
  | .init d => [commandWord 0x01 d 0 0]
  | .destroy d => [commandWord 0x02 d 0 0]
  | .grow d ext => [commandWord 0x03 d 0 0, ext]
  | .zero d => [commandWord 0x04 d 0 0]
  | .seti d ext => [commandWord 0x05 d 0 0, ext]
  | .copy d a => [commandWord 0x06 d a 0]
  | .add d a b => [commandWord 0x10 d a b]
  | .sub d a b => [commandWord 0x11 d a b]
  | .addabs d a b => [commandWord 0x12 d a b]
  | .subabs d a b => [commandWord 0x13 d a b]
  | .incabs d => [commandWord 0x14 d 0 0]
  | .cmp a b => [commandWord 0x20 0 a b]
  | .cmpabs a b => [commandWord 0x21 0 a b]
  | .qmsb a => [commandWord 0x30 0 a 0]
  | .qneg a => [commandWord 0x31 0 a 0]
  | .qcap a => [commandWord 0x32 0 a 0]
  | .qword a ext => [commandWord 0x33 0 a 0, ext]
  | .qstate a => [commandWord 0x34 0 a 0]
  | .qfree => [commandWord 0x35 0 0 0]

/-! ## The opcode table -/

/-- A row of spec/opcode_table.json: a command word `w` is the row's when `w &&& mask = bits`. -/
structure TableRow where
  mnemonic : String
  bits : Word
  mask : Word
  words : Nat
  deriving DecidableEq, Repr

/-- The row's mask selects its match in the command word. -/
def TableRow.matchesWord (r : TableRow) (w : Word) : Bool :=
  w &&& r.mask == r.bits

/-- spec/opcode_table.json, row by row. -/
def opcodeTable : List TableRow :=
  [ ⟨"INIT", 0x01000000, 0xFF00FFFF, 1⟩,
    ⟨"DESTROY", 0x02000000, 0xFF00FFFF, 1⟩,
    ⟨"GROW", 0x03000000, 0xFF00FFFF, 2⟩,
    ⟨"ZERO", 0x04000000, 0xFF00FFFF, 1⟩,
    ⟨"SETI", 0x05000000, 0xFF00FFFF, 2⟩,
    ⟨"COPY", 0x06000000, 0xFF0000FF, 1⟩,
    ⟨"ADD", 0x10000000, 0xFF000000, 1⟩,
    ⟨"SUB", 0x11000000, 0xFF000000, 1⟩,
    ⟨"ADDABS", 0x12000000, 0xFF000000, 1⟩,
    ⟨"SUBABS", 0x13000000, 0xFF000000, 1⟩,
    ⟨"INCABS", 0x14000000, 0xFF00FFFF, 1⟩,
    ⟨"CMP", 0x20000000, 0xFFFF0000, 1⟩,
    ⟨"CMPABS", 0x21000000, 0xFFFF0000, 1⟩,
    ⟨"QMSB", 0x30000000, 0xFFFF00FF, 1⟩,
    ⟨"QNEG", 0x31000000, 0xFFFF00FF, 1⟩,
    ⟨"QCAP", 0x32000000, 0xFFFF00FF, 1⟩,
    ⟨"QWORD", 0x33000000, 0xFFFF00FF, 2⟩,
    ⟨"QSTATE", 0x34000000, 0xFFFF00FF, 1⟩,
    ⟨"QFREE", 0x35000000, 0xFFFFFFFF, 1⟩ ]

/-! ## The host's view of one instruction as a number -/

/-- The two words of an instruction whose bits are `w` as spec/opcode_table.json numbers them (bit 0 is bit 0 of the first
word, the extension word's bits count on from 32), with every bit from `nbits` up zero. -/
def tableWords (nbits w : Nat) : List Word :=
  [BitVec.ofNat 32 (w % 2 ^ nbits), BitVec.ofNat 32 (w % 2 ^ nbits / 2 ^ 32)]

/-- What the decoder reads from those words. -/
def decodeTableWord (nbits w : Nat) : Option Instr :=
  match decode (tableWords nbits w) with
  | .ok (i, _) => some i
  | .error _ => none

end Sys2Proof
end

