-- ==== Sys2Proof/Machine/Fetch.lean ====
section
/-!
DEFINITION. The host's side of a transaction (70_reset_and_hazards.md R250, R251, R252, R256, R257): which words it presents next, and what a
transaction leaves at the interface. One step of the model is one whole transaction (log entry 9).
-/

namespace Sys2Proof.Machine

/-- What the host has presented when the block looks for a command. -/
inductive Fetched where
  /-- The host program has no word left (R252). -/
  | nothing
  /-- The command word of a two-word command whose extension word is not there (R256). -/
  | incomplete (w : Word)
  /-- All the words of one command, one or two (30_encoding.md R80, R89). -/
  | command (ws : List Word)
  deriving DecidableEq, Repr

/-- The command word the block has in hand: the one it holds while it waits for an extension word, else the word at `pc`. -/
def State.commandWord? (s : State) : Option Word :=
  match s.port with
  | .awaitExt w => some w
  | .idle => s.program[s.pc]?
  | .responding => s.program[s.pc]?

/-- The words of the next command: the length is decided by OP alone (30_encoding.md R89), and the extension word follows its command
word (70_reset_and_hazards.md R256). -/
def State.fetch (s : State) : Fetched :=
  match s.commandWord? with
  | none => .nothing
  | some w =>
    if commandLength w = 1 then .command [w]
    else
      match s.program[s.pc + 1]? with
      | none => .incomplete w
      | some ext => .command [w, ext]

/-- The block waits with a command word whose extension word has not come (R256): no response, and `pc` stays. -/
def State.wait (s : State) (w : Word) : State :=
  { s with port := .awaitExt w }

/-- The host has nothing to present: the block is idle (R250, R252). -/
def State.rest (s : State) : State :=
  { s with port := .idle }

/-- A command of `len` words has ended: its response is presented and the host's pointer moves past it (R251, R257). -/
def State.respond (s : State) (len : Nat) : State :=
  { s with port := .responding, pc := s.pc + len }

/-- `State.respond` after a command that ended in a next state. -/
def retire (len : Nat) : Host.Outcome State Fault Refusal → Host.Outcome State Fault Refusal
  | .next s => .next (s.respond len)
  | .fault r => .fault r
  | .refused r => .refused r

/-- A program with the words `ws` at word index `n`, whatever stood there; words missing below `n` are zero. -/
def placeWords : List Word → Nat → List Word → List Word
  | p, 0, ws => ws ++ p.drop ws.length
  | [], n + 1, ws => 0 :: placeWords [] n ws
  | w :: p, n + 1, ws => w :: placeWords p n ws

end Sys2Proof.Machine
end

