-- ==== Sys2Proof/Machine/Step.lean ====
section
/-!
DEFINITION. One step: one transaction between the host and the block (70_reset_and_hazards.md R250), or the reset the host asserts (R242), or
waiting where there is no complete command (R252, R256).
-/

namespace Sys2Proof.Machine

/-- One step. A state whose parameters are not a configuration of this hardware is refused (00_scope.md R8). -/
def step (s : State) : Host.Outcome State Fault Refusal :=
  if !s.cfg.legal then .refused .illegalConfiguration
  else if s.resetRequest then .next s.takeReset
  else
    match s.fetch with
    | .nothing => .next s.rest
    | .incomplete w => .next (s.wait w)
    | .command ws =>
      match decode ws with
      | .ok (i, _) => retire ws.length (exec i s)
      | .error _ => retire ws.length (.next s.illegal)

/-- `s` with the instruction of bits `w` (`tableWords`) at the host's command pointer, presented to an idle block (log entry 6): the very
next step runs it. -/
def State.withFetchWord (s : State) (nbits w : Nat) : State :=
  { s with program := placeWords s.program s.pc (tableWords nbits w), port := .idle, resetRequest := false }

end Sys2Proof.Machine
end

