-- ==== Sys2Proof/Safety.lean ====
section
/-!
DEFINITION. The terms the statements are written in: the invariants of 10_state.md R22 to R25, R28, R30 and R32, the signed value of a handle
(00_scope.md R16), what a command answers, what it leaves alone, and when a growth request can be met (20_memory.md R60).
-/

namespace Sys2Proof.Machine

/-! ## Well-formed handles and memory -/

/-- The record of a handle keeps the invariants of 10_state.md: R22 for each kind, R24 with the bound of R21, R25 for `msb` and `neg`. The inline
buffer's words fit the buffer, and in an INLINE handle they are counted once, in `mag`. R23 follows. -/
abbrev Handle.Wf (c : Config) (h : Handle) : Prop :=
  (h.kind = .uninit → h.cap = 0 ∧ h.mag = 0 ∧ h.msb = 0 ∧ h.neg = false ∧ h.indet = false) ∧
  (h.kind = .inlined → h.cap = c.inlineWords ∧ h.inlineBuf = 0) ∧
  (h.kind = .heap → h.cap % c.quantum = 0 ∧ c.inlineWords < h.cap ∧ h.cap ≤ c.maxWords) ∧
  h.mag < 2 ^ (32 * h.cap) ∧
  h.msb.toNat = bitlen h.mag ∧
  (h.mag = 0 → h.neg = false) ∧
  h.inlineBuf < 2 ^ (32 * c.inlineWords)

/-- The memory of the block, the word storage of its handles, is in its canonical form. -/
abbrev Memory.wf (s : State) : Prop :=
  ∀ h ∈ s.handles, h.Wf s.cfg

/-- The words of the pool that heap buffers hold (10_state.md R32). -/
def heapTotal (hs : List Handle) : Nat :=
  (hs.map Handle.heapWords).sum

/-- STATUS holds a code of 60_exceptions.md R210 and its reserved bits read 0 (10_state.md R30). -/
abbrev StatusWf (w : Word) : Prop :=
  (statusCode w).toNat ≤ 3 ∧ w &&& 0xFFFFFEF0 = 0

/-- A command word is held only for a two-word command (70_reset_and_hazards.md R256). -/
def Port.wf : Port → Bool
  | .idle => true
  | .awaitExt w => decide (commandLength w ≠ 1)
  | .responding => true

/-- The invariant of the machine: the parameters are a configuration of this hardware (00_scope.md R7), the handle file has NREG records
(10_state.md R20), every record is well formed (R22 to R25), FREE counts the words no heap buffer holds (R32), STATUS is one the block writes
(R30), and the port holds no command word but a two-word command's. -/
abbrev State.Inv (s : State) : Prop :=
  s.cfg.Legal ∧
  s.handles.length = s.cfg.nreg ∧
  Memory.wf s ∧
  s.free.toNat + heapTotal s.handles = s.cfg.poolWords ∧
  StatusWf s.status ∧
  s.port.wf = true

/-! ## Values, answers and frames -/

/-- The signed value of a handle (00_scope.md R16). -/
def Handle.val (h : Handle) : Int :=
  if h.neg then -(h.mag : Int) else h.mag

/-- `Word(h, i)` (20_memory.md R51). -/
def Handle.word (h : Handle) (i : Nat) : Word :=
  wordAt h.mag i

/-- The command that led from `s` to `t` ended with code `c` and result `r` (00_scope.md R13, 10_state.md R30, R31, 60_exceptions.md R218). -/
def Answered (s t : State) (c : Code) (r : Word) : Prop :=
  t.status = statusWord c (statusSticky s.status || decide (c ≠ .ok)) ∧ t.result = r

/-- The command ended with code `c`. -/
abbrev EndedWith (t : State) (c : Code) : Prop :=
  statusCode t.status = c.value

/-- Everything but the record of handle `d` (no handle, for `none`), FREE, STATUS, RESULT and the model's own `turn` is the same in `t` as in
`s`; so every word of every other handle is. -/
def KeepsOutside (s t : State) (d : Option Index) : Prop :=
  t.cfg = s.cfg ∧ t.port = s.port ∧ t.program = s.program ∧ t.pc = s.pc ∧ t.resetRequest = s.resetRequest ∧
  t.handles.length = s.handles.length ∧ ∀ i : Index, d ≠ some i → t.handle i = s.handle i

/-- Nothing but STATUS and RESULT differs between `s` and `t`. -/
def OnlyAnswers (s t : State) : Prop :=
  t = { s with status := t.status, result := t.result }

/-! ## Preconditions -/

/-- Handle `i` exists (10_state.md R20). -/
abbrev State.Names (s : State) (i : Index) : Prop :=
  s.cfg.names i = true

/-- The checks of a command that reads the values of `srcs` and overwrites `d` pass (60_exceptions.md R212, R213). -/
def State.Ready (s : State) (d : Index) (srcs : List Index) : Prop :=
  s.Names d ∧ s.initialized d = true ∧ ∀ i ∈ srcs, s.Names i ∧ s.readable i = true

/-- A growth of handle `i` to `nbits` bits can be met: the fast path (20_memory.md R64), or a request that is granted (R60). -/
def State.CanGrow (s : State) (i : Index) (nbits : Nat) : Prop :=
  wordsFor nbits ≤ (s.handle i).cap ∨
  (growWords s.cfg nbits ≤ s.cfg.maxWords ∧ growWords s.cfg nbits ≤ s.free.toNat ∧ s.granted (growWords s.cfg nbits) = true)

/-- What a growth of handle `i` to `nbits` bits that was met leaves of its kind, its capacity and FREE (20_memory.md R61, R62, R64). -/
def GrewTo (s t : State) (i : Index) (nbits : Nat) : Prop :=
  if wordsFor nbits ≤ (s.handle i).cap then
    (t.handle i).kind = (s.handle i).kind ∧ (t.handle i).cap = (s.handle i).cap ∧ t.free = s.free
  else
    (t.handle i).kind = .heap ∧ (t.handle i).cap = growWords s.cfg nbits ∧
    t.free.toNat + growWords s.cfg nbits = s.free.toNat + (s.handle i).heapWords

/-- The growth request of a signed sum of `x` and `y` (41_arithmetic.md R145). -/
def signedBits (x y : Operand) : Nat :=
  if x.neg = y.neg then addBits x y else subBits x y

/-- The handles whose value a command reads, each guarded by `need_value` (60_exceptions.md R213). -/
def reads : Instr → List Index
  | .init _ => []
  | .destroy _ => []
  | .grow _ _ => []
  | .zero _ => []
  | .seti _ _ => []
  | .copy _ a => [a]
  | .add _ a b => [a, b]
  | .sub _ a b => [a, b]
  | .addabs _ a b => [a, b]
  | .subabs _ a b => [a, b]
  | .incabs d => [d]
  | .cmp a b => [a, b]
  | .cmpabs a b => [a, b]
  | .qmsb a => [a]
  | .qneg a => [a]
  | .qcap a => [a]
  | .qword a _ => [a]
  | .qstate _ => []
  | .qfree => []

/-- The destination a command overwrites, guarded by `need_init` (60_exceptions.md R213). -/
def overwrites : Instr → List Index
  | .init _ => []
  | .destroy _ => []
  | .grow _ _ => []
  | .zero d => [d]
  | .seti d _ => [d]
  | .copy d _ => [d]
  | .add d _ _ => [d]
  | .sub d _ _ => [d]
  | .addabs d _ _ => [d]
  | .subabs d _ _ => [d]
  | .incabs _ => []
  | .cmp _ _ => []
  | .cmpabs _ _ => []
  | .qmsb _ => []
  | .qneg _ => []
  | .qcap _ => []
  | .qword _ _ => []
  | .qstate _ => []
  | .qfree => []

/-- The commands that ask the allocator for words (20_memory.md R59). -/
def growing : Instr → Bool
  | .init _ => false
  | .destroy _ => false
  | .grow _ _ => true
  | .zero _ => false
  | .seti _ _ => false
  | .copy _ _ => true
  | .add _ _ _ => true
  | .sub _ _ _ => true
  | .addabs _ _ _ => true
  | .subabs _ _ _ => true
  | .incabs _ => true
  | .cmp _ _ => false
  | .cmpabs _ _ => false
  | .qmsb _ => false
  | .qneg _ => false
  | .qcap _ => false
  | .qword _ _ => false
  | .qstate _ => false
  | .qfree => false

/-- The state with the words left behind in inline buffers forgotten (10_state.md R34). -/
def State.forgetInline (s : State) : State :=
  { s with handles := s.handles.map fun h => { h with inlineBuf := 0 } }

/-- The host program has ended: the pointer is past its last word (70_reset_and_hazards.md R252). A step is a whole transaction, so the response to
the last command has then been presented. -/
def State.ended (s : State) : Bool :=
  s.pc == s.program.length

/-- The end state of R252: the handle file, without what no command can observe of it, FREE, STATUS and RESULT. -/
def State.endState (s : State) : List Handle × Word × Word × Word :=
  (s.forgetInline.handles, s.free, s.status, s.result)

/-- The block in the state of 70_reset_and_hazards.md R240 for the parameters `c`: every handle UNINIT with its fields 0, FREE full, STATUS and
RESULT 0, the interface idle. Inline and pool words are unspecified there, and nothing is said of them. -/
def BlockReset (c : Config) (t : State) : Prop :=
  t.cfg = c ∧ t.handles.length = c.nreg ∧
  (∀ h ∈ t.handles, h.kind = .uninit ∧ h.cap = 0 ∧ h.mag = 0 ∧ h.msb = 0 ∧ h.neg = false ∧ h.indet = false) ∧
  t.free.toNat = c.poolWords ∧ t.status = 0 ∧ t.result = 0 ∧ t.port = .idle

/-- The state behind a bus adapter of another byte order, or of none (20_memory.md R52). -/
def State.withBus (s : State) (o : Option ByteOrder) : State :=
  { s with cfg := { s.cfg with busByteOrder := o } }

/-- An OP value that the opcode map leaves out, as 30_encoding.md R88 lists them. -/
def reservedOp (op : BitVec 8) : Bool :=
  decide (op.toNat = 0x00) ||
  (decide (0x07 ≤ op.toNat) && decide (op.toNat ≤ 0x0F)) ||
  (decide (0x15 ≤ op.toNat) && decide (op.toNat ≤ 0x1F)) ||
  (decide (0x22 ≤ op.toNat) && decide (op.toNat ≤ 0x2F)) ||
  decide (0x36 ≤ op.toNat)

/-- The codes 60_exceptions.md R216 lists for a decoded command; ILLEGAL_COMMAND is the decoder's alone (R211). -/
def possibleCodes : Instr → List Code
  | .init _ => [.ok, .invalidArgument]
  | .destroy _ => [.ok, .invalidArgument]
  | .grow _ _ => [.ok, .outOfMemory, .invalidArgument]
  | .zero _ => [.ok, .invalidArgument]
  | .seti _ _ => [.ok, .invalidArgument]
  | .copy _ _ => [.ok, .outOfMemory, .invalidArgument]
  | .add _ _ _ => [.ok, .outOfMemory, .invalidArgument]
  | .sub _ _ _ => [.ok, .outOfMemory, .invalidArgument]
  | .addabs _ _ _ => [.ok, .outOfMemory, .invalidArgument]
  | .subabs _ _ _ => [.ok, .outOfMemory, .invalidArgument]
  | .incabs _ => [.ok, .outOfMemory, .invalidArgument]
  | .cmp _ _ => [.ok, .invalidArgument]
  | .cmpabs _ _ => [.ok, .invalidArgument]
  | .qmsb _ => [.ok, .invalidArgument]
  | .qneg _ => [.ok, .invalidArgument]
  | .qcap _ => [.ok, .invalidArgument]
  | .qword _ _ => [.ok, .invalidArgument]
  | .qstate _ => [.ok, .invalidArgument]
  | .qfree => [.ok]

/-- A safe run so far: no command since reset has failed (60_exceptions.md R218). -/
def State.allOk (s : State) : Bool :=
  !statusSticky s.status

end Sys2Proof.Machine
end

