-- ==== Sys2Proof/Certificates/Slice0/Obligations.lean ====
section
/-!
DEFINITION. What is to be proved of the machine, one `def Obligations.<Name> : Prop` each, in the terms of Safety.lean.

A docstring opens with the numbers of the rules of spec/ its statement follows; OBLIGATIONS.json says which of them it states whole. Where a
well-formed state is needed, the premise is `State.Inv`, which
`Obligations.StepKeepsTheInvariant` and `Obligations.ResetMeetsTheInvariant` establish.
-/

open Sys2Proof Sys2Proof.Machine

/-! ## Reset and configurations -/

/-- R240: after reset every handle is UNINIT, FREE is POOL_WORDS, STATUS and RESULT are 0 and the interface is idle, for every configuration of
this hardware, the default one among them. -/
def Obligations.ResetLeavesTheStateOfTheTable : Prop :=
  (∀ c : Config, c.Legal → BlockReset c (State.resetWith c)) ∧ State.reset = State.resetWith Config.default ∧ Config.default.Legal

/-- The invariant holds after reset, for every configuration of this hardware. -/
def Obligations.ResetMeetsTheInvariant : Prop :=
  (∀ c : Config, c.Legal → (State.resetWith c).Inv) ∧ State.reset.Inv

/-- R242: reset during a command, or while a two-word command waits, abandons it: the state is that of R240, the parameters stay, and no response is
presented. -/
def Obligations.ResetAbandonsTheCommand : Prop :=
  ∀ s : State, s.cfg.Legal → s.resetRequest = true → ∃ t, step s = .next t ∧ BlockReset s.cfg t

/-- A step is refused exactly in a state whose parameters are not a configuration of this hardware, and no step faults: R8 asks that such a
configuration be refused, and that nothing else stops a step is read from R219 (log entry 13, DEDUCED). In every configuration INLINE_WORDS is a
positive multiple of Q. -/
def Obligations.OnlyAnIllegalConfigurationIsRefused : Prop :=
  (∀ s : State, ((∃ r, step s = .refused r) ↔ ¬ s.cfg.Legal) ∧ ∀ f, step s ≠ .fault f) ∧
  ∀ c : Config, c.Legal → c.inlineWords % c.quantum = 0 ∧ 1 ≤ c.inlineWords

/-! ## The host's transactions -/

/-- Where the words at the host's pointer decode to a command, a step is that command's `exec`, after which the response is presented and the
pointer has moved past the command's words; and where a two-word command is held and its extension word has come, a step runs the command the two
words spell. -/
def Obligations.StepRunsTheDecodedCommand : Prop :=
  (∀ (s : State) (i : Instr) (rest : List Word), s.cfg.Legal → s.resetRequest = false → (∀ w, s.port ≠ .awaitExt w) →
    decode (s.program.drop s.pc) = .ok (i, rest) →
    step s = retire (encode i).length (exec i s) ∧
    ∀ t, exec i s = .next t → step s = .next { t with port := .responding, pc := t.pc + (encode i).length }) ∧
  ∀ (s : State) (w ext : Word) (i : Instr), s.cfg.Legal → s.resetRequest = false → s.port = .awaitExt w →
    commandLength w = 2 → s.program[s.pc + 1]? = some ext → decode [w, ext] = .ok (i, []) →
    step s = retire 2 (exec i s)

/-- R256: a two-word command without its extension word is not executed: the block holds the command word and waits, for as long as none comes, and a
reset discards the word. -/
def Obligations.TwoWordCommandWaits : Prop :=
  ∀ (s : State) (w : Word), s.cfg.Legal → s.resetRequest = false → s.commandWord? = some w → commandLength w = 2 →
    s.program[s.pc + 1]? = none →
    step s = .next { s with port := .awaitExt w } ∧
    step { s with port := .awaitExt w } = .next { s with port := .awaitExt w } ∧
    ∀ t, step { s with port := .awaitExt w, resetRequest := true } = .next t → t.port = .idle

/-- Where the host has no word left to present, the block is idle and keeps everything. -/
def Obligations.FinishedProgramLeavesTheBlockIdle : Prop :=
  ∀ s : State, s.cfg.Legal → s.resetRequest = false → (∀ w, s.port ≠ .awaitExt w) → s.program.length ≤ s.pc →
    step s = .next { s with port := .idle }

/-- The host's pointer moves only past a whole command, by that command's length, and no step changes the program. -/
def Obligations.PointerMovesByTheCommandLength : Prop :=
  ∀ s t : State, step s = .next t →
    t.program = s.program ∧ (t.pc = s.pc ∨ ∃ w, s.commandWord? = some w ∧ t.pc = s.pc + commandLength w)

/-! ## Decoding -/

/-- R211: a command word that no row of the opcode table matches, whether by its opcode or by a field its format does not use, ends with
ILLEGAL_COMMAND; all its words, the extension word of 0x03, 0x05 and 0x33 among them, are consumed, and nothing else changes but STATUS and RESULT. -/
def Obligations.IllegalCommandWordsOnlyReport : Prop :=
  ∀ (s : State) (w : Word), s.cfg.Legal → s.resetRequest = false → s.commandWord? = some w →
    (∀ r ∈ opcodeTable, r.matchesWord w = false) → (commandLength w = 2 → s.program[s.pc + 1]? ≠ none) →
    step s = .next
      { s with status := statusWord .illegalCommand true, result := 0, port := .responding, pc := s.pc + commandLength w }

/-- R88: the listed opcodes, and no others, are reserved; a command word with one of them is one word long and ends with ILLEGAL_COMMAND. -/
def Obligations.ReservedOpcodesAreIllegal : Prop :=
  ∀ w : Word,
    (Opcode.ofField (opField w) = none ↔ reservedOp (opField w) = true) ∧
    (reservedOp (opField w) = true → commandLength w = 1 ∧
      ∀ s : State, s.cfg.Legal → s.resetRequest = false → s.commandWord? = some w →
        step s = .next
          { s with status := statusWord .illegalCommand true, result := 0, port := .responding, pc := s.pc + 1 })

/-- Every command is read back from its own words, with every operand at every value, and with whatever words follow. -/
def Obligations.DecodeOfEncode : Prop :=
  ∀ (i : Instr) (rest : List Word), decode (encode i ++ rest) = .ok (i, rest)

/-- A list of words that decodes to a command begins with exactly that command's words: no other spelling is accepted. -/
def Obligations.EncodeOfDecode : Prop :=
  ∀ (ws : List Word) (i : Instr) (rest : List Word), decode ws = .ok (i, rest) → ws = encode i ++ rest

/-- R90: every command word is either a legal command word, and then exactly one row of the opcode table matches it, with the command's length, or
illegal, and then none does. -/
def Obligations.ExactlyOneTableRowMatches : Prop :=
  ∀ w ext : Word,
    ((∃ i, decodeCommand w ext = .ok i) ↔ ∃! r, r ∈ opcodeTable ∧ r.matchesWord w = true) ∧
    ((∃ e, decodeCommand w ext = .error e) ↔ ∀ r ∈ opcodeTable, r.matchesWord w = false) ∧
    ∀ r ∈ opcodeTable, r.matchesWord w = true → r.words = commandLength w

/-- R93: the spec's encoding examples, read and written. -/
def Obligations.EncodingExamples : Prop :=
  (decode [0x10030102] = .ok (.add 3 1 2, []) ∧ encode (.add 3 1 2) = [0x10030102]) ∧
  (decode [0x05010000, 0xFFFFFFF9] = .ok (.seti 1 (enc32 (-7)), []) ∧ encode (.seti 1 (enc32 (-7))) = [0x05010000, 0xFFFFFFF9]) ∧
  (decode [0x03010000, 0x00000081] = .ok (.grow 1 129, []) ∧ encode (.grow 1 129) = [0x03010000, 0x00000081]) ∧
  (decode [0x33000300, 0x00000000] = .ok (.qword 3 0, []) ∧ encode (.qword 3 0) = [0x33000300, 0x00000000]) ∧
  (decode [0x20000401] = .ok (.cmp 4 1, []) ∧ encode (.cmp 4 1) = [0x20000401]) ∧
  (decode [0x35000000] = .ok (.qfree, []) ∧ encode .qfree = [0x35000000])

/-- R80: the length of a command is decided by the opcode field alone, 2 words for GROW, SETI and QWORD and 1 for every other opcode, reserved ones
included; and a command has as many words as its command word says. -/
def Obligations.LengthIsDecidedByTheOpcode : Prop :=
  (∀ w : Word, commandLength w =
    if Opcode.ofField (opField w) = some .grow ∨ Opcode.ofField (opField w) = some .seti ∨ Opcode.ofField (opField w) = some .qword
    then 2 else 1) ∧
  ∀ (i : Instr) (w : Word) (ws : List Word), encode i = w :: ws → (encode i).length = commandLength w

/-! ## Invariants -/

/-- Every step, whether its command ends with OK or fails, keeps the invariant of the machine: every handle well formed in its kind, capacity, magnitude,
bit length and sign, FREE the pool words no heap buffer holds, STATUS a code with its reserved bits 0. -/
def Obligations.StepKeepsTheInvariant : Prop :=
  ∀ s t : State, s.Inv → step s = .next t → t.Inv

/-- Within a lifetime the capacity of a handle never falls, it changes only to a multiple of Q and only onto the heap, and a heap-backed handle stays
heap-backed. -/
def Obligations.LifetimeKeepsItsStorage : Prop :=
  ∀ (s t : State) (i : Index), s.Inv → step s = .next t → s.Names i →
    (s.handle i).kind = .uninit ∨ (t.handle i).kind = .uninit ∨
    ((s.handle i).cap ≤ (t.handle i).cap ∧
      ((t.handle i).cap ≠ (s.handle i).cap → (t.handle i).cap % s.cfg.quantum = 0 ∧ (t.handle i).kind = .heap) ∧
      ((s.handle i).kind = .heap → (t.handle i).kind = .heap))

/-- The frame of every command: nothing but the record of its destination, FREE, STATUS and RESULT changes, so every word of every other handle reads as
before; a command without a destination changes no handle at all. -/
def Obligations.CommandTouchesOnlyItsDestination : Prop :=
  ∀ (i : Instr) (s t : State), exec i s = .next t →
    KeepsOutside s t i.dest ∧ ∀ (j : Index) (k : Nat), i.dest ≠ some j → (t.handle j).word k = (s.handle j).word k

/-- FREE changes only by a growth or by DESTROY. -/
def Obligations.FreeChangesOnlyByGrowthAndDestroy : Prop :=
  ∀ (i : Instr) (s t : State), exec i s = .next t → growing i = false → (∀ d, i ≠ .destroy d) → t.free = s.free

/-- R218: a command that ends with a code other than OK sets STICKY, one that ends with OK leaves it, an illegal command word, which ends with
ILLEGAL_COMMAND, sets it, and no step but a reset clears it; so STICKY = 0 says that no command since reset failed. -/
def Obligations.StickyRecordsEveryFailure : Prop :=
  (∀ (i : Instr) (s t : State), exec i s = .next t →
    statusSticky t.status = (statusSticky s.status || decide (statusCode t.status ≠ Code.ok.value))) ∧
  (∀ s : State, EndedWith s.illegal .illegalCommand ∧ statusSticky s.illegal.status = true) ∧
  (∀ (s : State) (w : Word), s.cfg.Legal → s.resetRequest = false → s.commandWord? = some w →
    (∀ r ∈ opcodeTable, r.matchesWord w = false) → (commandLength w = 2 → s.program[s.pc + 1]? ≠ none) →
    ∃ t, step s = .next t ∧ EndedWith t .illegalCommand ∧ statusSticky t.status = true) ∧
  (∀ s t : State, step s = .next t → s.resetRequest = false → statusSticky s.status = true → statusSticky t.status = true) ∧
  ∀ s t : State, step s = .next t → s.resetRequest = true → statusSticky t.status = false

/-- RESULT is 0 after every command that returns no result and after every command that ends with a code other than OK, an illegal command word
among them. -/
def Obligations.ResultIsZeroUnlessReturned : Prop :=
  (∀ (i : Instr) (s t : State), exec i s = .next t → (i.returnsResult = false ∨ ¬ EndedWith t .ok) → t.result = 0) ∧
  (∀ s : State, EndedWith s.illegal .illegalCommand ∧ s.illegal.result = 0) ∧
  ∀ (s : State) (w : Word), s.cfg.Legal → s.resetRequest = false → s.commandWord? = some w →
    (∀ r ∈ opcodeTable, r.matchesWord w = false) → (commandLength w = 2 → s.program[s.pc + 1]? ≠ none) →
    ∃ t, step s = .next t ∧ EndedWith t .illegalCommand ∧ t.result = 0

/-- Every command ends, with one of the codes its row of the status table allows, and DESTROY and QSTATE end with INVALID_ARGUMENT for an index only. -/
def Obligations.CommandsEndWithTheirOwnCodes : Prop :=
  ∀ (i : Instr) (s : State), ∃ t, exec i s = .next t ∧ (∃ c ∈ possibleCodes i, EndedWith t c) ∧
    (((∃ d, i = .destroy d) ∨ ∃ a, i = .qstate a) → EndedWith t .invalidArgument → i.wf s.cfg = false)

/-- R214: what each failure leaves. INVALID_ARGUMENT leaves all but STATUS and RESULT; OUT_OF_MEMORY leaves FREE and, for GROW of an initialized handle,
COPY and INCABS, the destination; GROW of an UNINIT handle keeps the initialization; ADD, SUB, ADDABS and SUBABS leave the destination indeterminate with its
kind and capacity; and no other handle changes. ILLEGAL_COMMAND, the decoder's, leaves all but STATUS and RESULT too. -/
def Obligations.FailuresLeaveWhatTheTableSays : Prop :=
  (∀ s : State, OnlyAnswers s s.illegal ∧ EndedWith s.illegal .illegalCommand) ∧
  ∀ (i : Instr) (s t : State), s.Inv → exec i s = .next t →
    (EndedWith t .invalidArgument → OnlyAnswers s t) ∧
    (EndedWith t .outOfMemory → t.free = s.free ∧ KeepsOutside s t i.dest ∧
      (∀ d ext, i = .grow d ext → (s.handle d).kind ≠ .uninit → t.handle d = s.handle d) ∧
      (∀ d ext, i = .grow d ext → (s.handle d).kind = .uninit → t.handle d = Handle.fresh s.cfg) ∧
      (∀ d a, i = .copy d a → t.handle d = s.handle d) ∧
      (∀ d, i = .incabs d → t.handle d = s.handle d) ∧
      (∀ d a b, i = .add d a b ∨ i = .sub d a b ∨ i = .addabs d a b ∨ i = .subabs d a b →
        (t.handle d).indet = true ∧ (t.handle d).kind = (s.handle d).kind ∧ (t.handle d).cap = (s.handle d).cap))

/-- R213: a command that reads the value of an UNINIT or indeterminate handle, or overwrites an UNINIT one, ends with INVALID_ARGUMENT and writes
nothing else. -/
def Obligations.StateChecksRefuse : Prop :=
  ∀ (i : Instr) (s : State), i.wf s.cfg = true →
    ((∃ h ∈ reads i, (s.handle h).kind = .uninit ∨ (s.handle h).indet = true) ∨ ∃ h ∈ overwrites i, (s.handle h).kind = .uninit) →
    exec i s = .next (s.raise .invalidArgument)

/-- R212: a command one of whose used handle fields is NREG or more ends with INVALID_ARGUMENT and changes nothing but STATUS and RESULT. -/
def Obligations.IndexCheckRefuses : Prop :=
  ∀ (i : Instr) (s : State), (∃ h ∈ i.handles, s.cfg.nreg ≤ h.toNat) → exec i s = .next (s.raise .invalidArgument)

/-- What an inline buffer still holds after its handle moved to the heap, or at reset, no command can observe: two states that differ only there answer
every step alike and go on to states that differ only there. The two states have the same `turn`, so the two steps meet one and the same sequence of
oracle answers and draws: that they share it is the model's choice (log entry 4, DESIGN CHOICE). -/
def Obligations.InlineLeftoversAreUnobservable : Prop :=
  ∀ s s' t : State, s.forgetInline = s'.forgetInline → step s = .next t →
    ∃ t', step s' = .next t' ∧ t.status = t'.status ∧ t.result = t'.result ∧ t.forgetInline = t'.forgetInline

/-- The core has no byte order: the byte order of a bus adapter in front of it changes no step. The two states have the same `turn`, so the two steps
meet one and the same sequence of oracle answers and draws: that they share it is the model's choice (log entry 4, DESIGN CHOICE). -/
def Obligations.BusByteOrderChangesNoStep : Prop :=
  ∀ (s t : State) (o : Option ByteOrder), step s = .next t → step (s.withBus o) = .next (t.withBus o)

/-! ## The allocator -/

/-- R60: a request is granted exactly when it is within MAX_WORDS and FREE and the oracle answers true. -/
def Obligations.RequestIsGrantedExactlyWhen : Prop :=
  ∀ (s : State) (i : Index) (n : Nat), (s.handle i).cap < wordsFor n →
    ((∃ t, s.grow i n = .ok t) ↔
      growWords s.cfg n ≤ s.cfg.maxWords ∧ growWords s.cfg n ≤ s.free.toNat ∧ s.granted (growWords s.cfg n) = true)

/-- R61: a growth that allocates installs a heap buffer of the requirement rounded up to the quantum, checked against FREE before the old buffer goes
back; the value and the invariant stay, and nothing else changes. -/
def Obligations.GrowthInstallsARoundedBuffer : Prop :=
  ∀ (s : State) (i : Index) (n : Nat), s.Inv → s.Names i → s.initialized i = true → (s.handle i).cap < wordsFor n → s.CanGrow i n →
    ∃ t, s.grow i n = .ok t ∧
      (t.handle i).kind = .heap ∧ (t.handle i).cap = ceilDiv (ceilDiv n 32) s.cfg.quantum * s.cfg.quantum ∧
      (t.handle i).mag = (s.handle i).mag ∧ (t.handle i).msb = (s.handle i).msb ∧ (t.handle i).neg = (s.handle i).neg ∧
      (t.handle i).indet = (s.handle i).indet ∧
      t.free.toNat + (t.handle i).cap = s.free.toNat + (s.handle i).heapWords ∧ (t.handle i).cap ≤ s.free.toNat ∧
      t.Inv ∧ KeepsOutside s t (some i) ∧ t.status = s.status ∧ t.result = s.result

/-- R63: a growth that fails has changed no handle and not FREE. -/
def Obligations.FailedGrowthChangesNothing : Prop :=
  ∀ (s t : State) (i : Index) (n : Nat), s.grow i n = .oom t → t = { s with turn := t.turn }

/-- R64: a growth the capacity already covers changes nothing, asks the oracle nothing and succeeds. -/
def Obligations.CoveredGrowthIsImmediate : Prop :=
  ∀ (s : State) (i : Index) (n : Nat), ceilDiv n 32 ≤ (s.handle i).cap → s.grow i n = .ok s

/-- R65: after a growth to `n` bits, a growth to no more bits changes nothing and succeeds. -/
def Obligations.RepeatedGrowthChangesNothing : Prop :=
  ∀ (s t : State) (i : Index) (n m : Nat), s.Inv → s.Names i → s.grow i n = .ok t → m ≤ n → t.grow i m = .ok t

/-! ## Lifecycle and storage commands -/

/-- R100, R101: INIT of an UNINIT handle gives the inline-backed canonical zero; INIT of any other handle is refused and changes nothing. -/
def Obligations.InitGivesTheCanonicalZero : Prop :=
  ∀ (s : State) (d : Index), s.Inv → s.Names d →
    ((s.handle d).kind = .uninit → ∃ t, exec (.init d) s = .next t ∧ Answered s t .ok 0 ∧
      (t.handle d).kind = .inlined ∧ (t.handle d).cap = s.cfg.inlineWords ∧ (t.handle d).mag = 0 ∧ (t.handle d).msb = 0 ∧
      (t.handle d).neg = false ∧ (t.handle d).indet = false ∧ t.free = s.free ∧ KeepsOutside s t (some d)) ∧
    ((s.handle d).kind ≠ .uninit → exec (.init d) s = .next (s.raise .invalidArgument))

/-- R103, R104: DESTROY of any handle, indeterminate or not, makes it UNINIT and returns its heap words to FREE; the inline buffer of an
initialized handle is scrubbed (R105). -/
def Obligations.DestroyReleasesTheStorage : Prop :=
  ∀ (s : State) (d : Index), s.Inv → s.Names d → ∃ t, exec (.destroy d) s = .next t ∧ Answered s t .ok 0 ∧
    (t.handle d).kind = .uninit ∧ (t.handle d).cap = 0 ∧ (t.handle d).mag = 0 ∧ (t.handle d).msb = 0 ∧ (t.handle d).neg = false ∧
    (t.handle d).indet = false ∧ ((s.handle d).kind ≠ .uninit → (t.handle d).inlineBuf = 0) ∧
    t.free.toNat = s.free.toNat + (s.handle d).heapWords ∧ KeepsOutside s t (some d)

/-- R106, R108, R110: GROW of an initialized handle makes room and keeps the value, or ends with OUT_OF_MEMORY and changes nothing else, where the handle
is determinate; it is refused where it is not. -/
def Obligations.GrowMakesRoomAndKeepsTheValue : Prop :=
  ∀ (s : State) (d : Index) (ext : Word), s.Inv → s.Names d → (s.handle d).kind ≠ .uninit →
    ((s.handle d).indet = false → s.CanGrow d ext.toNat → ∃ t, exec (.grow d ext) s = .next t ∧ Answered s t .ok 0 ∧
      ext.toNat ≤ 32 * (t.handle d).cap ∧ GrewTo s t d ext.toNat ∧ (t.handle d).mag = (s.handle d).mag ∧
      (t.handle d).msb = (s.handle d).msb ∧ (t.handle d).neg = (s.handle d).neg ∧ (t.handle d).indet = false ∧
      KeepsOutside s t (some d)) ∧
    ((s.handle d).indet = false → ¬ s.CanGrow d ext.toNat → ∃ t, exec (.grow d ext) s = .next t ∧ Answered s t .outOfMemory 0 ∧
      t.handle d = s.handle d ∧ t.free = s.free ∧ KeepsOutside s t (some d)) ∧
    ((s.handle d).indet = true → exec (.grow d ext) s = .next (s.raise .invalidArgument))

/-- R107, R109: GROW of an UNINIT handle first initializes it as INIT does and then grows it; where the growth fails, the initialization
stands. -/
def Obligations.GrowInitializesFirst : Prop :=
  ∀ (s : State) (d : Index) (ext : Word), s.Inv → s.Names d → (s.handle d).kind = .uninit →
    ((s.setHandle d (Handle.fresh s.cfg)).CanGrow d ext.toNat → ∃ t, exec (.grow d ext) s = .next t ∧ Answered s t .ok 0 ∧
      GrewTo (s.setHandle d (Handle.fresh s.cfg)) t d ext.toNat ∧ (t.handle d).mag = 0 ∧ (t.handle d).msb = 0 ∧
      (t.handle d).neg = false ∧ (t.handle d).indet = false ∧ KeepsOutside s t (some d)) ∧
    (¬ (s.setHandle d (Handle.fresh s.cfg)).CanGrow d ext.toNat → ∃ t, exec (.grow d ext) s = .next t ∧ Answered s t .outOfMemory 0 ∧
      (t.handle d).kind = .inlined ∧ (t.handle d).cap = s.cfg.inlineWords ∧ (t.handle d).mag = 0 ∧ (t.handle d).msb = 0 ∧
      (t.handle d).neg = false ∧ (t.handle d).indet = false ∧ t.free = s.free ∧ KeepsOutside s t (some d))

/-- R111, R112, R113: ZERO of an initialized handle, indeterminate or not, gives the canonical zero in the storage it has. -/
def Obligations.ZeroKeepsTheStorage : Prop :=
  ∀ (s : State) (d : Index), s.Inv → s.Names d → s.initialized d = true → ∃ t, exec (.zero d) s = .next t ∧ Answered s t .ok 0 ∧
    t.handle d = { s.handle d with mag := 0, msb := 0, neg := false, indet := false } ∧ t.free = s.free ∧ KeepsOutside s t (some d)

/-- R114, R116, R117: SETI gives an initialized handle the signed value of its extension word, the absolute value exact at -2^31 too and zero without
a sign, in the storage it has. -/
def Obligations.SetiGivesTheSignedValue : Prop :=
  ∀ (s : State) (d : Index) (ext : Word), s.Inv → s.Names d → s.initialized d = true →
    ∃ t, exec (.seti d ext) s = .next t ∧ Answered s t .ok 0 ∧
      (t.handle d).val = ext.toInt ∧ (t.handle d).mag = ext.toInt.natAbs ∧ (t.handle d).msb.toNat = bitlen ext.toInt.natAbs ∧
      ((t.handle d).neg = true ↔ ext.toInt < 0) ∧ (t.handle d).indet = false ∧ (t.handle d).kind = (s.handle d).kind ∧
      (t.handle d).cap = (s.handle d).cap ∧ t.free = s.free ∧ KeepsOutside s t (some d)

/-- R123: after a COPY to another handle that ends with OK, destination and source have the same value, bit length and words, and no later command on
the destination changes the source. A COPY of a nonzero value whose source is readable and whose destination, indeterminate or not, is initialized
ends with OK where the destination has or gets the room, and with OUT_OF_MEMORY, the destination and FREE as before, where it does not
(R118, R121, R60). -/
def Obligations.CopyGivesTheSameValue : Prop :=
  ∀ (s : State) (d a : Index), s.Inv → d ≠ a →
    (∀ t, exec (.copy d a) s = .next t → EndedWith t .ok →
      (t.handle d).val = (s.handle a).val ∧ (t.handle d).msb = (s.handle a).msb ∧ (∀ k, (t.handle d).word k = (s.handle a).word k) ∧
      t.handle a = s.handle a ∧ ∀ (i : Instr) (u : State), i.dest = some d → exec i t = .next u → u.handle a = s.handle a) ∧
    (s.Ready d [a] → (s.handle a).mag ≠ 0 → s.CanGrow d (s.handle a).msb.toNat →
      ∃ t, exec (.copy d a) s = .next t ∧ Answered s t .ok 0 ∧ (t.handle d).val = (s.handle a).val ∧ (t.handle d).msb = (s.handle a).msb ∧
        (t.handle d).indet = false ∧ GrewTo s t d (s.handle a).msb.toNat ∧ KeepsOutside s t (some d)) ∧
    (s.Ready d [a] → (s.handle a).mag ≠ 0 → ¬ s.CanGrow d (s.handle a).msb.toNat →
      ∃ t, exec (.copy d a) s = .next t ∧ Answered s t .outOfMemory 0 ∧ t.handle d = s.handle d ∧ t.free = s.free ∧
        KeepsOutside s t (some d))

/-- R119, R120: COPY of a zero to another handle clears it in the storage it has and asks for no growth; COPY of a readable handle onto itself changes
nothing but STATUS and RESULT, and of an UNINIT or indeterminate one it is refused. -/
def Obligations.CopyOfZeroAndOntoItself : Prop :=
  (∀ (s : State) (d a : Index), s.Inv → s.Ready d [a] → d ≠ a → (s.handle a).mag = 0 →
    ∃ t, exec (.copy d a) s = .next t ∧ Answered s t .ok 0 ∧
      t.handle d = { s.handle d with mag := 0, msb := 0, neg := false, indet := false } ∧ t.free = s.free ∧ t.turn = s.turn ∧
      KeepsOutside s t (some d)) ∧
  ∀ (s : State) (a : Index), s.Names a →
    (s.readable a = true → exec (.copy a a) s = .next (s.finish .ok 0)) ∧
    (s.readable a = false → exec (.copy a a) s = .next (s.raise .invalidArgument))

/-! ## Arithmetic commands -/

/-- R148: an ADD that ends with OK leaves the exact signed sum of the values its sources held, whichever of its handles are the same. Where its
operands are readable and its destination is initialized, it ends with OK if the room it asks for can be had, and with OUT_OF_MEMORY if not. -/
def Obligations.AddGivesTheExactSum : Prop :=
  ∀ (s : State) (d a b : Index), s.Inv →
    (∀ t, exec (.add d a b) s = .next t → EndedWith t .ok → (t.handle d).val = (s.handle a).val + (s.handle b).val) ∧
    (s.Ready d [a, b] → s.CanGrow d (signedBits (s.operand a) (s.operand b)) →
      ∃ t, exec (.add d a b) s = .next t ∧ Answered s t .ok 0 ∧ (t.handle d).val = (s.handle a).val + (s.handle b).val ∧
        (t.handle d).msb.toNat = bitlen (t.handle d).mag ∧ (t.handle d).indet = false ∧
        GrewTo s t d (signedBits (s.operand a) (s.operand b)) ∧ KeepsOutside s t (some d)) ∧
    (s.Ready d [a, b] → ¬ s.CanGrow d (signedBits (s.operand a) (s.operand b)) →
      ∃ t, exec (.add d a b) s = .next t ∧ EndedWith t .outOfMemory)

/-- R152: a SUB that ends with OK leaves the exact signed difference; and it ends with OK where its operands are readable, its destination is initialized and
the room it asks for can be had. -/
def Obligations.SubGivesTheExactDifference : Prop :=
  ∀ (s : State) (d a b : Index), s.Inv →
    (∀ t, exec (.sub d a b) s = .next t → EndedWith t .ok → (t.handle d).val = (s.handle a).val - (s.handle b).val) ∧
    (s.Ready d [a, b] → s.CanGrow d (signedBits (s.operand a) (s.operand b).flip) →
      ∃ t, exec (.sub d a b) s = .next t ∧ Answered s t .ok 0 ∧ (t.handle d).val = (s.handle a).val - (s.handle b).val ∧
        (t.handle d).msb.toNat = bitlen (t.handle d).mag ∧ (t.handle d).indet = false ∧
        GrewTo s t d (signedBits (s.operand a) (s.operand b).flip) ∧ KeepsOutside s t (some d))

/-- R155, R156: an ADDABS that ends with OK leaves the sum of the absolute values, without a sign; and it ends with OK where its operands are readable,
its destination is initialized and the room it asks for can be had. -/
def Obligations.AddabsGivesTheSumOfMagnitudes : Prop :=
  ∀ (s : State) (d a b : Index), s.Inv →
    (∀ t, exec (.addabs d a b) s = .next t → EndedWith t .ok →
      (t.handle d).val = |(s.handle a).val| + |(s.handle b).val| ∧ (t.handle d).neg = false) ∧
    (s.Ready d [a, b] → s.CanGrow d (max (s.handle a).msb.toNat (s.handle b).msb.toNat + 1) →
      ∃ t, exec (.addabs d a b) s = .next t ∧ Answered s t .ok 0 ∧ (t.handle d).val = |(s.handle a).val| + |(s.handle b).val| ∧
        (t.handle d).msb.toNat = bitlen (t.handle d).mag ∧ (t.handle d).indet = false ∧
        GrewTo s t d (max (s.handle a).msb.toNat (s.handle b).msb.toNat + 1) ∧ KeepsOutside s t (some d))

/-- R155, R160: a SUBABS that ends with OK leaves the absolute difference of the absolute values, without a sign; and it ends with OK where its operands are
readable, its destination is initialized and the room it asks for can be had. -/
def Obligations.SubabsGivesTheDifferenceOfMagnitudes : Prop :=
  ∀ (s : State) (d a b : Index), s.Inv →
    (∀ t, exec (.subabs d a b) s = .next t → EndedWith t .ok →
      (t.handle d).val = |(|(s.handle a).val| - |(s.handle b).val|)| ∧ (t.handle d).neg = false) ∧
    (s.Ready d [a, b] → s.CanGrow d (max (s.handle a).msb.toNat (s.handle b).msb.toNat) →
      ∃ t, exec (.subabs d a b) s = .next t ∧ Answered s t .ok 0 ∧
        (t.handle d).val = |(|(s.handle a).val| - |(s.handle b).val|)| ∧
        (t.handle d).msb.toNat = bitlen (t.handle d).mag ∧ (t.handle d).indet = false ∧
        GrewTo s t d (max (s.handle a).msb.toNat (s.handle b).msb.toNat) ∧ KeepsOutside s t (some d))

/-- R147: where the magnitudes are equal and the signs differ, ADD leaves the canonical zero; so does SUB where they are the same, the
subtrahend's sign being flipped. -/
def Obligations.MagnitudeTieGivesTheCanonicalZero : Prop :=
  ∀ (s t : State) (d a b : Index), s.Inv → (s.handle a).mag = (s.handle b).mag →
    ((exec (.add d a b) s = .next t ∧ (s.handle a).neg ≠ (s.handle b).neg) ∨
     (exec (.sub d a b) s = .next t ∧ (s.handle a).neg = (s.handle b).neg)) →
    EndedWith t .ok →
    (t.handle d).mag = 0 ∧ (t.handle d).msb = 0 ∧ (t.handle d).neg = false

/-- R146: where its checks pass and the room it asks for cannot be had, ADD, SUB, ADDABS or SUBABS ends with OUT_OF_MEMORY and leaves its destination
indeterminate, with its kind and capacity and FREE unchanged and with a value that keeps the invariants, whatever that value is. -/
def Obligations.WeakFailureKeepsTheInvariants : Prop :=
  ∀ (s : State) (d a b : Index) (i : Instr) (n : Nat), s.Inv → s.Ready d [a, b] →
    ((i = .add d a b ∧ n = signedBits (s.operand a) (s.operand b)) ∨
     (i = .sub d a b ∧ n = signedBits (s.operand a) (s.operand b).flip) ∨
     (i = .addabs d a b ∧ n = addBits (s.operand a) (s.operand b)) ∨
     (i = .subabs d a b ∧ n = subBits (s.operand a) (s.operand b))) →
    ¬ s.CanGrow d n →
    ∃ t, exec i s = .next t ∧ Answered s t .outOfMemory 0 ∧ (t.handle d).indet = true ∧
      (t.handle d).kind = (s.handle d).kind ∧ (t.handle d).cap = (s.handle d).cap ∧ t.free = s.free ∧
      (t.handle d).mag < 2 ^ (32 * (t.handle d).cap) ∧ (t.handle d).msb.toNat = bitlen (t.handle d).mag ∧
      ((t.handle d).mag = 0 → (t.handle d).neg = false) ∧ KeepsOutside s t (some d)

/-- R168: an INCABS that ends with OK leaves the magnitude plus one under the same sign. Where its operand is readable and not zero, it ends with OK if
the operand has or gets the room for one more bit, and with OUT_OF_MEMORY, the operand and FREE as before, if not (R162, R166); INCABS of zero is
`Obligations.IncabsOfZeroAsksForNothing`. -/
def Obligations.IncabsAddsOneToTheMagnitude : Prop :=
  ∀ (s : State) (d : Index), s.Inv →
    (∀ t, exec (.incabs d) s = .next t → EndedWith t .ok →
      (t.handle d).mag = (s.handle d).mag + 1 ∧ (t.handle d).neg = (s.handle d).neg) ∧
    (s.Names d → s.readable d = true → (s.handle d).mag ≠ 0 → s.CanGrow d ((s.handle d).msb.toNat + 1) →
      ∃ t, exec (.incabs d) s = .next t ∧ Answered s t .ok 0 ∧ (t.handle d).mag = (s.handle d).mag + 1 ∧
        (t.handle d).neg = (s.handle d).neg ∧ (t.handle d).indet = false ∧ GrewTo s t d ((s.handle d).msb.toNat + 1) ∧
        KeepsOutside s t (some d)) ∧
    (s.Names d → s.readable d = true → (s.handle d).mag ≠ 0 → ¬ s.CanGrow d ((s.handle d).msb.toNat + 1) →
      ∃ t, exec (.incabs d) s = .next t ∧ Answered s t .outOfMemory 0 ∧ t.handle d = s.handle d ∧ t.free = s.free ∧
        KeepsOutside s t (some d))

/-- R163: INCABS of the canonical zero gives 1 with one significant bit, asks for no growth and cannot fail. -/
def Obligations.IncabsOfZeroAsksForNothing : Prop :=
  ∀ (s : State) (d : Index), s.Inv → s.Names d → s.readable d = true → (s.handle d).mag = 0 →
    ∃ t, exec (.incabs d) s = .next t ∧ Answered s t .ok 0 ∧ t.handle d = { s.handle d with mag := 1, msb := 1 } ∧
      (t.handle d).word 0 = 1 ∧ t.free = s.free ∧ t.turn = s.turn ∧ KeepsOutside s t (some d)

/-- R165: after INCABS the bit length is that of the new magnitude: one more exactly when every significant bit was one, and the same otherwise. -/
def Obligations.IncabsRaisesTheBitLengthByAtMostOne : Prop :=
  ∀ (s t : State) (d : Index), s.Inv → exec (.incabs d) s = .next t → EndedWith t .ok →
    (t.handle d).msb.toNat = bitlen (t.handle d).mag ∧
    (((t.handle d).msb.toNat = (s.handle d).msb.toNat + 1 ∧ (s.handle d).mag = 2 ^ (s.handle d).msb.toNat - 1) ∨
     ((t.handle d).msb = (s.handle d).msb ∧ (s.handle d).mag ≠ 2 ^ (s.handle d).msb.toNat - 1))

/-- R142, R159: on magnitudes of `n` words the ripple-carry add is the exact sum, below `2^(32 n + 1)`, its top bit the carry out, and the ripple-borrow
subtraction of the smaller from the larger is the exact absolute difference. -/
def Obligations.RippleArithmeticIsExact : Prop :=
  ∀ n x y : Nat, x < 2 ^ (32 * n) → y < 2 ^ (32 * n) →
    addMag n x y false = x + y ∧ addMag n x y false < 2 ^ (32 * n + 1) ∧
    addMag n x y false / 2 ^ (32 * n) = (if 2 ^ (32 * n) ≤ x + y then 1 else 0) ∧
    (subMag n (max x y) (min x y) false : Int) = |(x : Int) - y|

/-! ## Comparison commands -/

/-- R182: CMP of two readable handles returns the order of their signed values and changes nothing else. -/
def Obligations.CmpReturnsTheSignedOrder : Prop :=
  ∀ (s : State) (a b : Index), s.Inv → s.Names a → s.Names b → s.readable a = true → s.readable b = true →
    exec (.cmp a b) s = .next (s.finish .ok
      (if (s.handle b).val < (s.handle a).val then 1 else if (s.handle a).val < (s.handle b).val then 0xFFFFFFFF else 0))

/-- R186: CMPABS of two readable handles returns the order of their absolute values and changes nothing else. -/
def Obligations.CmpabsReturnsTheMagnitudeOrder : Prop :=
  ∀ (s : State) (a b : Index), s.Inv → s.Names a → s.Names b → s.readable a = true → s.readable b = true →
    exec (.cmpabs a b) s = .next (s.finish .ok
      (if |(s.handle b).val| < |(s.handle a).val| then 1 else if |(s.handle a).val| < |(s.handle b).val| then 0xFFFFFFFF else 0))

/-! ## Query commands -/

/-- R191: QMSB of a readable handle returns the bit length of its absolute value and changes nothing else. -/
def Obligations.QmsbReturnsTheBitLength : Prop :=
  ∀ (s : State) (a : Index), s.Inv → s.Names a → s.readable a = true →
    exec (.qmsb a) s = .next (s.finish .ok (BitVec.ofNat 32 (bitlen (s.handle a).val.natAbs)))

/-- R192, R194: QNEG returns 1 for a negative value and 0 otherwise, QCAP the capacity in words; neither changes anything else. -/
def Obligations.QnegAndQcapReturnSignAndCapacity : Prop :=
  ∀ (s : State) (a : Index), s.Inv → s.Names a → s.readable a = true →
    exec (.qneg a) s = .next (s.finish .ok (if (s.handle a).val < 0 then 1 else 0)) ∧
    ∃ t, exec (.qcap a) s = .next t ∧ OnlyAnswers s t ∧ t.status = (s.finish .ok 0).status ∧ t.result.toNat = (s.handle a).cap

/-- R196, R197: QWORD returns the word of the magnitude that its index names, and refuses an index at or above the capacity. -/
def Obligations.QwordReturnsTheIndexedWord : Prop :=
  ∀ (s : State) (a : Index) (ext : Word), s.Inv → s.Names a → s.readable a = true →
    (ext.toNat < (s.handle a).cap → ∃ t, exec (.qword a ext) s = .next t ∧ OnlyAnswers s t ∧ t.status = (s.finish .ok 0).status ∧
      (∀ k, k < 32 → t.result.getLsbD k = (s.handle a).mag.testBit (32 * ext.toNat + k)) ∧
      ((s.handle a).msb.toNat ≤ 32 * ext.toNat → t.result = 0)) ∧
    ((s.handle a).cap ≤ ext.toNat → exec (.qword a ext) s = .next (s.raise .invalidArgument))

/-- R198: QSTATE of any handle, UNINIT and indeterminate ones too, returns its kind in bits 1:0 and its indeterminate flag in bit 2, and changes nothing
else. -/
def Obligations.QstateReturnsKindAndIndeterminate : Prop :=
  ∀ (s : State) (a : Index), s.Names a → ∃ t, exec (.qstate a) s = .next t ∧ OnlyAnswers s t ∧ t.status = (s.finish .ok 0).status ∧
    t.result.toNat =
      (match (s.handle a).kind with
        | .uninit => 0
        | .inlined => 1
        | .heap => 2) + if (s.handle a).indet then 4 else 0

/-- R200: QFREE returns FREE and changes nothing else; after reset that is POOL_WORDS, and it is never more. -/
def Obligations.QfreeReturnsTheFreeWords : Prop :=
  (∀ s : State, exec .qfree s = .next (s.finish .ok s.free) ∧ (s.Inv → s.free.toNat ≤ s.cfg.poolWords)) ∧
  ∀ c : Config, c.Legal → exec .qfree (State.resetWith c) = .next ((State.resetWith c).finish .ok (BitVec.ofNat 32 c.poolWords))

/-- R183, R201: a comparison or a query changes nothing but STATUS and RESULT, so the same query again returns the same result. -/
def Obligations.QueriesAreReadOnly : Prop :=
  ∀ (i : Instr) (s t : State), i.returnsResult = true → exec i s = .next t →
    OnlyAnswers s t ∧ ∀ u, exec i t = .next u → u.result = t.result

/-- R51: the magnitude of a well-formed handle is the sum of its words, least significant first. -/
def Obligations.MagnitudeIsTheSumOfItsWords : Prop :=
  ∀ (c : Config) (h : Handle), h.Wf c → h.mag = ∑ i ∈ Finset.range h.cap, (h.word i).toNat * 2 ^ (32 * i)
end

