-- ==== Sys2Proof/Laws/Arith.lean ====
section
/-!
SUPPORT. What the arithmetic primitives and the ripple computations are worth: `bitlen` as the bound by powers of two, the roundings of the growth
step, and the ripple add, subtract, increment and compare as exact arithmetic on magnitudes that fit their words.
-/

namespace Sys2Proof.Machine

/-! ## Bit lengths -/

@[simp] theorem bitlen_zero : bitlen 0 = 0 := rfl

/-- A number takes at most `n` bits exactly when it is below `2 ^ n`. -/
theorem bitlen_le_iff (v n : Nat) : bitlen v ≤ n ↔ v < 2 ^ n := by
  unfold bitlen
  split
  · simp_all
  · rename_i hv
    rw [Nat.succ_le_iff, Nat.log2_lt hv]

theorem lt_two_pow_bitlen (v : Nat) : v < 2 ^ bitlen v :=
  (bitlen_le_iff v _).1 le_rfl

theorem bitlen_eq_zero_iff (v : Nat) : bitlen v = 0 ↔ v = 0 := by
  unfold bitlen
  split <;> simp_all

theorem bitlen_mono {v w : Nat} (h : v ≤ w) : bitlen v ≤ bitlen w :=
  (bitlen_le_iff v _).2 (lt_of_le_of_lt h (lt_two_pow_bitlen w))

/-- A number of bit length `n + 1` is at least `2 ^ n` (00_scope.md R11). -/
theorem two_pow_le_of_lt_bitlen {v n : Nat} (h : n < bitlen v) : 2 ^ n ≤ v := by
  by_contra hc
  have := (bitlen_le_iff v n).2 (not_le.1 hc)
  omega

/-! ## Roundings -/

/-- The words of `n` bits hold `n` bits. -/
theorem le_wordsFor (n : Nat) : n ≤ 32 * wordsFor n := by
  unfold wordsFor ceilDiv
  omega

theorem wordsFor_mono {m n : Nat} (h : m ≤ n) : wordsFor m ≤ wordsFor n := by
  unfold wordsFor ceilDiv
  omega

/-- `n` bits fit `k` words exactly when `wordsFor n ≤ k`. -/
theorem wordsFor_le_iff (n k : Nat) : wordsFor n ≤ k ↔ n ≤ 32 * k := by
  unfold wordsFor ceilDiv
  omega

theorem roundUp_mod (n q : Nat) : roundUp n q % q = 0 :=
  Nat.mul_mod_left _ _

theorem le_roundUp {q : Nat} (hq : 1 ≤ q) (n : Nat) : n ≤ roundUp n q := by
  unfold roundUp ceilDiv
  have h1 := Nat.div_add_mod (n + q - 1) q
  have h2 := Nat.mod_lt (n + q - 1) hq
  rw [Nat.mul_comm] at h1
  omega

/-! ## Words -/

theorem wordAt_zero (x : Nat) : wordAt x 0 = BitVec.ofNat 32 x := by
  simp [wordAt]

theorem wordAt_toNat (x i : Nat) : (wordAt x i).toNat = x / 2 ^ (32 * i) % 2 ^ 32 := by
  simp [wordAt]

/-- Division of a magnitude of `n + 1` words by one word leaves `n` words. -/
theorem div_word_lt {n x : Nat} (h : x < 2 ^ (32 * (n + 1))) : x / 2 ^ 32 < 2 ^ (32 * n) := by
  rw [Nat.div_lt_iff_lt_mul (by positivity), ← Nat.pow_add]
  exact h

/-! ## The ripple computations -/

/-- The ripple-carry add is the exact sum (41_arithmetic.md R142), with any carry in. -/
theorem addMag_exact (n : Nat) : ∀ (x y : Nat) (c : Bool), x < 2 ^ (32 * n) → y < 2 ^ (32 * n) →
    addMag n x y c = x + y + c.toNat := by
  induction n with
  | zero =>
    intro x y c hx hy
    simp at hx hy
    simp [addMag, hx, hy]
  | succ n ih =>
    intro x y c hx hy
    have hc : c.toNat ≤ 1 := Bool.toNat_le c
    simp only [addMag]
    rw [ih _ _ _ (div_word_lt hx) (div_word_lt hy)]
    by_cases ht : 2 ^ 32 ≤ x % 2 ^ 32 + y % 2 ^ 32 + c.toNat
    · simp only [ht, decide_true, Bool.toNat_true]
      omega
    · simp only [ht, decide_false, Bool.toNat_false]
      omega

/-- The ripple-borrow subtract of the smaller magnitude and a borrow from the larger is the exact difference (41_arithmetic.md R159). -/
theorem subMag_exact (n : Nat) : ∀ (x y : Nat) (w : Bool), x < 2 ^ (32 * n) → y + w.toNat ≤ x →
    subMag n x y w = x - y - w.toNat := by
  induction n with
  | zero =>
    intro x y w hx hy
    simp at hx
    simp [subMag, hx]
  | succ n ih =>
    intro x y w hx hy
    have hw : w.toNat ≤ 1 := Bool.toNat_le w
    simp only [subMag]
    by_cases ht : ((x % 2 ^ 32 : Nat) : Int) - (y % 2 ^ 32 : Nat) - w.toNat < 0
    · simp only [ht, decide_true]
      rw [ih _ _ _ (div_word_lt hx) (by simp only [Bool.toNat_true]; omega)]
      simp only [Bool.toNat_true]
      omega
    · simp only [ht, decide_false]
      rw [ih _ _ _ (div_word_lt hx) (by simp only [Bool.toNat_false]; omega)]
      simp only [Bool.toNat_false]
      omega

/-- The ripple-carry increment adds one (41_arithmetic.md R164). -/
theorem incMag_exact (n : Nat) : ∀ x : Nat, x < 2 ^ (32 * n) → incMag n x = x + 1 := by
  induction n with
  | zero =>
    intro x hx
    simp at hx
    simp [incMag, hx]
  | succ n ih =>
    intro x hx
    simp only [incMag]
    split
    · rw [ih _ (div_word_lt hx)]
      omega
    · rfl

/-- The words from the top down order the magnitudes that fit them (42_compare.md R185). -/
theorem cmpWords_order (n : Nat) : ∀ x y : Nat,
    cmpWords n x y =
      if y % 2 ^ (32 * n) < x % 2 ^ (32 * n) then 1 else if x % 2 ^ (32 * n) < y % 2 ^ (32 * n) then -1 else 0 := by
  induction n with
  | zero =>
    intro x y
    simp [cmpWords, Nat.mod_one]
  | succ n ih =>
    intro x y
    have hsplit : ∀ z : Nat, z % 2 ^ (32 * (n + 1)) = 2 ^ (32 * n) * (z / 2 ^ (32 * n) % 2 ^ 32) + z % 2 ^ (32 * n) := by
      intro z
      rw [Nat.mul_add, Nat.mul_one, Nat.pow_add, Nat.mod_mul]
      omega
    have hlt : ∀ z : Nat, z % 2 ^ (32 * n) < 2 ^ (32 * n) := fun z => Nat.mod_lt _ (by positivity)
    have hx := hlt x
    have hy := hlt y
    simp only [cmpWords, ih, hsplit, BitVec.lt_def, wordAt_toNat]
    generalize x / 2 ^ (32 * n) % 2 ^ 32 = a
    generalize y / 2 ^ (32 * n) % 2 ^ 32 = b
    generalize x % 2 ^ (32 * n) = p at *
    generalize y % 2 ^ (32 * n) = q at *
    generalize 2 ^ (32 * n) = m at *
    rcases lt_trichotomy a b with hab | hab | hab
    · have hm : m * a + m ≤ m * b := by
        rw [← Nat.mul_succ]
        exact Nat.mul_le_mul_left m hab
      rw [if_neg (by omega), if_pos hab, if_neg (by omega), if_pos (by omega)]
    · subst hab
      simp only [lt_irrefl, if_false, Nat.add_lt_add_iff_left]
    · have hm : m * b + m ≤ m * a := by
        rw [← Nat.mul_succ]
        exact Nat.mul_le_mul_left m hab
      rw [if_pos hab, if_pos (by omega)]

/-- `CmpMag` orders magnitudes whose lengths are their bit lengths (42_compare.md R185). -/
theorem cmpMag_order {nx x ny y : Nat} (hx : nx = bitlen x) (hy : ny = bitlen y) :
    cmpMag nx x ny y = if y < x then 1 else if x < y then -1 else 0 := by
  have key : ∀ {v w : Nat}, bitlen v < bitlen w → v < w := fun h =>
    lt_of_lt_of_le (lt_two_pow_bitlen _) (two_pow_le_of_lt_bitlen h)
  subst hx hy
  unfold cmpMag
  split
  · rename_i h
    rw [if_pos (key h)]
  · split
    · rename_i h
      have := key h
      rw [if_neg (by omega), if_pos this]
    · have he : bitlen x = bitlen y := by omega
      have hfit : ∀ z : Nat, bitlen z = bitlen x → z % 2 ^ (32 * wordsFor (bitlen x)) = z := by
        intro z hz
        apply Nat.mod_eq_of_lt
        calc z < 2 ^ bitlen z := lt_two_pow_bitlen z
          _ ≤ 2 ^ (32 * wordsFor (bitlen x)) := by
            rw [hz]
            exact Nat.pow_le_pow_right (by omega) (le_wordsFor _)
      rw [cmpWords_order, hfit x rfl, hfit y he.symm]

/-! ## Operands whose lengths are their bit lengths -/

/-- A snapshot's length is the bit length of its magnitude (10_state.md R25). -/
def Operand.Exact (x : Operand) : Prop :=
  x.len = bitlen x.mag

theorem sumMag_exact {x y : Operand} (hx : x.Exact) (hy : y.Exact) : sumMag x y = x.mag + y.mag := by
  unfold Operand.Exact at hx hy
  unfold sumMag
  have hfit : ∀ z : Nat, bitlen z ≤ addBits x y → z < 2 ^ (32 * wordsFor (addBits x y)) := fun z hz =>
    (bitlen_le_iff _ _).1 (le_trans hz (le_wordsFor _))
  rw [addMag_exact _ _ _ _ (hfit _ (by unfold addBits; omega)) (hfit _ (by unfold addBits; omega))]
  simp

theorem diffMag_exact {x y : Operand} (hx : x.Exact) (hy : y.Exact) : diffMag x y = max x.mag y.mag - min x.mag y.mag := by
  unfold Operand.Exact at hx hy
  unfold diffMag
  have hfit : ∀ z : Nat, bitlen z ≤ subBits x y → z < 2 ^ (32 * wordsFor (subBits x y)) := fun z hz =>
    (bitlen_le_iff _ _).1 (le_trans hz (le_wordsFor _))
  rw [subMag_exact]
  · simp
  · rcases max_choice x.mag y.mag with h | h <;> rw [h] <;> apply hfit <;> unfold subBits <;> omega
  · simp

/-- The sum of two magnitudes takes the bits a magnitude add asks for (41_arithmetic.md R145). -/
theorem sum_lt_addBits {x y : Operand} (hx : x.Exact) (hy : y.Exact) : x.mag + y.mag < 2 ^ addBits x y := by
  unfold Operand.Exact at hx hy
  have h1 : x.mag < 2 ^ max x.len y.len := (bitlen_le_iff _ _).1 (by omega)
  have h2 : y.mag < 2 ^ max x.len y.len := (bitlen_le_iff _ _).1 (by omega)
  unfold addBits
  rw [Nat.pow_succ]
  omega

/-- The difference of two magnitudes takes the bits a magnitude subtract asks for (41_arithmetic.md R145). -/
theorem diff_lt_subBits {x y : Operand} (hx : x.Exact) (hy : y.Exact) :
    max x.mag y.mag - min x.mag y.mag < 2 ^ subBits x y := by
  unfold Operand.Exact at hx hy
  have h1 : x.mag < 2 ^ max x.len y.len := (bitlen_le_iff _ _).1 (by omega)
  have h2 : y.mag < 2 ^ max x.len y.len := (bitlen_le_iff _ _).1 (by omega)
  unfold subBits
  omega

end Sys2Proof.Machine
end

