-- ==== Sys2Proof/Laws/Decode.lean ====
section
/-!
SUPPORT. The fields of a command word and the opcode map as equations: a command word is its four fields, and an OP field names an opcode exactly when
it holds that opcode's value.
-/

namespace Sys2Proof

variable (op : BitVec 8) (xd xa xb : Index) (w : Word)

/-! ## Fields of a command word (30_encoding.md R81) -/

@[simp] theorem opField_commandWord : opField (commandWord op xd xa xb) = op := by
  apply BitVec.eq_of_getLsbD_eq
  intro i hi
  simp only [opField, commandWord, BitVec.getLsbD_extractLsb', BitVec.getLsbD_cast, BitVec.getLsbD_append, hi, decide_true,
    Bool.true_and]
  rw [if_neg (by omega), if_neg (by omega), if_neg (by omega)]
  congr 1
  omega

@[simp] theorem xdField_commandWord : xdField (commandWord op xd xa xb) = xd := by
  apply BitVec.eq_of_getLsbD_eq
  intro i hi
  simp only [xdField, commandWord, BitVec.getLsbD_extractLsb', BitVec.getLsbD_cast, BitVec.getLsbD_append, hi, decide_true,
    Bool.true_and]
  rw [if_neg (by omega), if_neg (by omega), if_pos (by omega)]
  congr 1
  omega

@[simp] theorem xaField_commandWord : xaField (commandWord op xd xa xb) = xa := by
  apply BitVec.eq_of_getLsbD_eq
  intro i hi
  simp only [xaField, commandWord, BitVec.getLsbD_extractLsb', BitVec.getLsbD_cast, BitVec.getLsbD_append, hi, decide_true,
    Bool.true_and]
  rw [if_neg (by omega), if_pos (by omega)]
  congr 1
  omega

@[simp] theorem xbField_commandWord : xbField (commandWord op xd xa xb) = xb := by
  apply BitVec.eq_of_getLsbD_eq
  intro i hi
  simp only [xbField, commandWord, BitVec.getLsbD_extractLsb', BitVec.getLsbD_cast, BitVec.getLsbD_append, hi, decide_true,
    Bool.true_and]
  rw [if_pos (by omega)]
  congr 1
  omega

/-- A command word is its four fields. -/
theorem commandWord_fields : commandWord (opField w) (xdField w) (xaField w) (xbField w) = w := by
  apply BitVec.eq_of_getLsbD_eq
  intro i hi
  simp only [opField, xdField, xaField, xbField, commandWord, BitVec.getLsbD_extractLsb', BitVec.getLsbD_cast,
    BitVec.getLsbD_append]
  split
  · simp [*]
  · split
    · simp only [show i - 8 < 8 by omega, decide_true, Bool.true_and]
      congr 1
      omega
    · split
      · simp only [show i - 8 - 8 < 8 by omega, decide_true, Bool.true_and]
        congr 1
        omega
      · simp only [show i - 8 - 8 - 8 < 8 by omega, decide_true, Bool.true_and]
        congr 1
        omega

/-! ## The opcode map (30_encoding.md R86) -/

@[simp] theorem ofField_value (o : Opcode) : Opcode.ofField o.value = some o := by
  cases o <;> rfl

/-- The opcode map, value by value. -/
theorem ofField_map :
    Opcode.ofField 1#8 = some .init ∧
    Opcode.ofField 2#8 = some .destroy ∧
    Opcode.ofField 3#8 = some .grow ∧
    Opcode.ofField 4#8 = some .zero ∧
    Opcode.ofField 5#8 = some .seti ∧
    Opcode.ofField 6#8 = some .copy ∧
    Opcode.ofField 16#8 = some .add ∧
    Opcode.ofField 17#8 = some .sub ∧
    Opcode.ofField 18#8 = some .addabs ∧
    Opcode.ofField 19#8 = some .subabs ∧
    Opcode.ofField 20#8 = some .incabs ∧
    Opcode.ofField 32#8 = some .cmp ∧
    Opcode.ofField 33#8 = some .cmpabs ∧
    Opcode.ofField 48#8 = some .qmsb ∧
    Opcode.ofField 49#8 = some .qneg ∧
    Opcode.ofField 50#8 = some .qcap ∧
    Opcode.ofField 51#8 = some .qword ∧
    Opcode.ofField 52#8 = some .qstate ∧
    Opcode.ofField 53#8 = some .qfree := by
  decide

/-- An OP field that names an opcode holds its value. -/
theorem value_of_ofField {o : Opcode} (h : Opcode.ofField op = some o) : op = o.value := by
  unfold Opcode.ofField at h
  exact (beq_iff_eq.1 (List.find?_some (p := fun o : Opcode => o.value == op) h)).symm

/-- An OP field that names no opcode holds the value of none. -/
theorem ofField_eq_none_iff : Opcode.ofField op = none ↔ ∀ o : Opcode, o.value ≠ op := by
  constructor
  · rintro h o rfl
    rw [ofField_value] at h
    cases h
  · intro h
    simp [Opcode.ofField, h]

/-- The length of a command word by its opcode (30_encoding.md R89). -/
theorem commandLength_le_two : commandLength w = 1 ∨ commandLength w = 2 := by
  unfold commandLength
  split <;> simp

end Sys2Proof
end

