-- ==== Sys2Proof/Laws/State.lean ====
section
/-!
SUPPORT. What each update of the state does to each field, one lemma per field and update, so that no later proof unfolds a record update.
-/

namespace Sys2Proof.Machine

variable (s : State) (i j : Index) (h : Handle) (c : Code) (r w : Word) (n : Nat)

/-! ## `State.setHandle` -/

@[simp] theorem State.setHandle_cfg : (s.setHandle i h).cfg = s.cfg := rfl

@[simp] theorem State.setHandle_handles : (s.setHandle i h).handles = s.handles.set i.toNat h := rfl

@[simp] theorem State.setHandle_free : (s.setHandle i h).free = s.free := rfl

@[simp] theorem State.setHandle_status : (s.setHandle i h).status = s.status := rfl

@[simp] theorem State.setHandle_result : (s.setHandle i h).result = s.result := rfl

@[simp] theorem State.setHandle_port : (s.setHandle i h).port = s.port := rfl

@[simp] theorem State.setHandle_program : (s.setHandle i h).program = s.program := rfl

@[simp] theorem State.setHandle_pc : (s.setHandle i h).pc = s.pc := rfl

@[simp] theorem State.setHandle_resetRequest : (s.setHandle i h).resetRequest = s.resetRequest := rfl

@[simp] theorem State.setHandle_turn : (s.setHandle i h).turn = s.turn := rfl

/-! ## `State.setFree` -/

@[simp] theorem State.setFree_cfg : (s.setFree w).cfg = s.cfg := rfl

@[simp] theorem State.setFree_handles : (s.setFree w).handles = s.handles := rfl

@[simp] theorem State.setFree_free : (s.setFree w).free = w := rfl

@[simp] theorem State.setFree_status : (s.setFree w).status = s.status := rfl

@[simp] theorem State.setFree_result : (s.setFree w).result = s.result := rfl

@[simp] theorem State.setFree_port : (s.setFree w).port = s.port := rfl

@[simp] theorem State.setFree_program : (s.setFree w).program = s.program := rfl

@[simp] theorem State.setFree_pc : (s.setFree w).pc = s.pc := rfl

@[simp] theorem State.setFree_resetRequest : (s.setFree w).resetRequest = s.resetRequest := rfl

@[simp] theorem State.setFree_turn : (s.setFree w).turn = s.turn := rfl

/-! ## `State.finish` -/

@[simp] theorem State.finish_cfg : (s.finish c r).cfg = s.cfg := rfl

@[simp] theorem State.finish_handles : (s.finish c r).handles = s.handles := rfl

@[simp] theorem State.finish_free : (s.finish c r).free = s.free := rfl

@[simp] theorem State.finish_status : (s.finish c r).status = statusWord c (statusSticky s.status || decide (c ≠ .ok)) := rfl

@[simp] theorem State.finish_result : (s.finish c r).result = r := rfl

@[simp] theorem State.finish_port : (s.finish c r).port = s.port := rfl

@[simp] theorem State.finish_program : (s.finish c r).program = s.program := rfl

@[simp] theorem State.finish_pc : (s.finish c r).pc = s.pc := rfl

@[simp] theorem State.finish_resetRequest : (s.finish c r).resetRequest = s.resetRequest := rfl

@[simp] theorem State.finish_turn : (s.finish c r).turn = s.turn := rfl

/-! ## `State.raise` -/

@[simp] theorem State.raise_cfg : (s.raise c).cfg = s.cfg := rfl

@[simp] theorem State.raise_handles : (s.raise c).handles = s.handles := rfl

@[simp] theorem State.raise_free : (s.raise c).free = s.free := rfl

@[simp] theorem State.raise_status : (s.raise c).status = statusWord c (statusSticky s.status || decide (c ≠ .ok)) := rfl

@[simp] theorem State.raise_result : (s.raise c).result = 0 := rfl

@[simp] theorem State.raise_port : (s.raise c).port = s.port := rfl

@[simp] theorem State.raise_program : (s.raise c).program = s.program := rfl

@[simp] theorem State.raise_pc : (s.raise c).pc = s.pc := rfl

@[simp] theorem State.raise_resetRequest : (s.raise c).resetRequest = s.resetRequest := rfl

@[simp] theorem State.raise_turn : (s.raise c).turn = s.turn := rfl

/-! ## `State.nextTurn` -/

@[simp] theorem State.nextTurn_cfg : (s.nextTurn).cfg = s.cfg := rfl

@[simp] theorem State.nextTurn_handles : (s.nextTurn).handles = s.handles := rfl

@[simp] theorem State.nextTurn_free : (s.nextTurn).free = s.free := rfl

@[simp] theorem State.nextTurn_status : (s.nextTurn).status = s.status := rfl

@[simp] theorem State.nextTurn_result : (s.nextTurn).result = s.result := rfl

@[simp] theorem State.nextTurn_port : (s.nextTurn).port = s.port := rfl

@[simp] theorem State.nextTurn_program : (s.nextTurn).program = s.program := rfl

@[simp] theorem State.nextTurn_pc : (s.nextTurn).pc = s.pc := rfl

@[simp] theorem State.nextTurn_resetRequest : (s.nextTurn).resetRequest = s.resetRequest := rfl

@[simp] theorem State.nextTurn_turn : (s.nextTurn).turn = s.turn + 1 := rfl

/-! ## `State.respond` -/

@[simp] theorem State.respond_cfg : (s.respond n).cfg = s.cfg := rfl

@[simp] theorem State.respond_handles : (s.respond n).handles = s.handles := rfl

@[simp] theorem State.respond_free : (s.respond n).free = s.free := rfl

@[simp] theorem State.respond_status : (s.respond n).status = s.status := rfl

@[simp] theorem State.respond_result : (s.respond n).result = s.result := rfl

@[simp] theorem State.respond_port : (s.respond n).port = .responding := rfl

@[simp] theorem State.respond_program : (s.respond n).program = s.program := rfl

@[simp] theorem State.respond_pc : (s.respond n).pc = s.pc + n := rfl

@[simp] theorem State.respond_resetRequest : (s.respond n).resetRequest = s.resetRequest := rfl

@[simp] theorem State.respond_turn : (s.respond n).turn = s.turn := rfl

/-! ## `State.wait` -/

@[simp] theorem State.wait_cfg : (s.wait w).cfg = s.cfg := rfl

@[simp] theorem State.wait_handles : (s.wait w).handles = s.handles := rfl

@[simp] theorem State.wait_free : (s.wait w).free = s.free := rfl

@[simp] theorem State.wait_status : (s.wait w).status = s.status := rfl

@[simp] theorem State.wait_result : (s.wait w).result = s.result := rfl

@[simp] theorem State.wait_port : (s.wait w).port = .awaitExt w := rfl

@[simp] theorem State.wait_program : (s.wait w).program = s.program := rfl

@[simp] theorem State.wait_pc : (s.wait w).pc = s.pc := rfl

@[simp] theorem State.wait_resetRequest : (s.wait w).resetRequest = s.resetRequest := rfl

@[simp] theorem State.wait_turn : (s.wait w).turn = s.turn := rfl

/-! ## `State.rest` -/

@[simp] theorem State.rest_cfg : (s.rest).cfg = s.cfg := rfl

@[simp] theorem State.rest_handles : (s.rest).handles = s.handles := rfl

@[simp] theorem State.rest_free : (s.rest).free = s.free := rfl

@[simp] theorem State.rest_status : (s.rest).status = s.status := rfl

@[simp] theorem State.rest_result : (s.rest).result = s.result := rfl

@[simp] theorem State.rest_port : (s.rest).port = .idle := rfl

@[simp] theorem State.rest_program : (s.rest).program = s.program := rfl

@[simp] theorem State.rest_pc : (s.rest).pc = s.pc := rfl

@[simp] theorem State.rest_resetRequest : (s.rest).resetRequest = s.resetRequest := rfl

@[simp] theorem State.rest_turn : (s.rest).turn = s.turn := rfl

/-! ## `State.takeReset` -/

@[simp] theorem State.takeReset_cfg : (s.takeReset).cfg = s.cfg := rfl

@[simp] theorem State.takeReset_handles : (s.takeReset).handles = List.replicate s.cfg.nreg Handle.reset := rfl

@[simp] theorem State.takeReset_free : (s.takeReset).free = BitVec.ofNat 32 s.cfg.poolWords := rfl

@[simp] theorem State.takeReset_status : (s.takeReset).status = 0 := rfl

@[simp] theorem State.takeReset_result : (s.takeReset).result = 0 := rfl

@[simp] theorem State.takeReset_port : (s.takeReset).port = .idle := rfl

@[simp] theorem State.takeReset_program : (s.takeReset).program = s.program := rfl

@[simp] theorem State.takeReset_pc : (s.takeReset).pc = s.pc := rfl

@[simp] theorem State.takeReset_resetRequest : (s.takeReset).resetRequest = false := rfl

@[simp] theorem State.takeReset_turn : (s.takeReset).turn = s.turn := rfl

/-! ## Reading a handle -/

@[simp] theorem State.handle_finish : (s.finish c r).handle i = s.handle i := rfl

@[simp] theorem State.handle_raise : (s.raise c).handle i = s.handle i := rfl

@[simp] theorem State.handle_nextTurn : s.nextTurn.handle i = s.handle i := rfl

@[simp] theorem State.handle_respond : (s.respond n).handle i = s.handle i := rfl

@[simp] theorem State.handle_setFree : (s.setFree w).handle i = s.handle i := rfl

/-- A handle written reads back. -/
theorem State.handle_setHandle_same (hi : i.toNat < s.handles.length) : (s.setHandle i h).handle i = h := by
  simp [State.handle, State.setHandle, hi]

/-- Writing one handle leaves every other. -/
theorem State.handle_setHandle_other (hij : i ≠ j) : (s.setHandle i h).handle j = s.handle j := by
  have hne : i.toNat ≠ j.toNat := fun he => hij (BitVec.eq_of_toNat_eq he)
  simp [State.handle, State.setHandle, List.getElem?_set_ne hne]

theorem State.length_setHandle : (s.setHandle i h).handles.length = s.handles.length := by
  simp [State.setHandle]

/-- A handle that exists is a record of the handle file. -/
theorem State.handle_mem (hi : i.toNat < s.handles.length) : s.handle i ∈ s.handles := by
  simp [State.handle, hi]

end Sys2Proof.Machine
end

