-- ==== Sys2Proof/Laws/Ops.lean ====
section
/-!
SUPPORT. For each shared operation, everything it can do, said once: the growth step by its cases, what each record update keeps of the
handle invariant, and that every operation over the handle file keeps the invariant of the machine.
-/

namespace Sys2Proof

variable {cfg : Config}

/-! ## Configurations (00_scope.md R7, R8) -/

/-- What the constraints of R7 say. -/
theorem Config.Legal.constraints (hl : cfg.Legal) :
    (1 ≤ cfg.nreg ∧ cfg.nreg ≤ 256) ∧ 1 ≤ cfg.quantum ∧ (cfg.quantum ≤ cfg.inlineWords ∧ cfg.inlineWords % cfg.quantum = 0) ∧
    (cfg.maxWords % cfg.quantum = 0 ∧ cfg.inlineWords ≤ cfg.maxWords ∧ 32 * cfg.maxWords ≤ 2 ^ 32 - 1) ∧
    cfg.poolWords ≤ 2 ^ 32 - 1 := by
  simp only [Config.Legal, Config.legal, Bool.and_eq_true, decide_eq_true_eq] at hl
  omega

theorem Config.Legal.quantum_pos (hl : cfg.Legal) : 1 ≤ cfg.quantum := hl.constraints.2.1

theorem Config.Legal.inline_le_max (hl : cfg.Legal) : cfg.inlineWords ≤ cfg.maxWords := hl.constraints.2.2.2.1.2.1

theorem Config.Legal.inline_pos (hl : cfg.Legal) : 1 ≤ cfg.inlineWords := le_trans hl.quantum_pos hl.constraints.2.2.1.1

theorem Config.Legal.max_bits (hl : cfg.Legal) : 32 * cfg.maxWords ≤ 2 ^ 32 - 1 := hl.constraints.2.2.2.1.2.2

theorem Config.Legal.pool_le (hl : cfg.Legal) : cfg.poolWords ≤ 2 ^ 32 - 1 := hl.constraints.2.2.2.2

end Sys2Proof

namespace Sys2Proof.Machine

variable {s t : State} {i j : Index} {h : Handle} {c : Code} {r w : Word} {n m : Nat} {cfg : Config}

/-! ## The parts of the invariants -/

theorem State.Inv.legal (hs : s.Inv) : s.cfg.Legal := hs.1

theorem State.Inv.length (hs : s.Inv) : s.handles.length = s.cfg.nreg := hs.2.1

theorem State.Inv.memory (hs : s.Inv) : Memory.wf s := hs.2.2.1

theorem State.Inv.pool (hs : s.Inv) : s.free.toNat + heapTotal s.handles = s.cfg.poolWords := hs.2.2.2.1

theorem Handle.Wf.bound (hw : h.Wf cfg) : h.mag < 2 ^ (32 * h.cap) := hw.2.2.2.1

theorem Handle.Wf.length (hw : h.Wf cfg) : h.msb.toNat = bitlen h.mag := hw.2.2.2.2.1

theorem Handle.Wf.sign (hw : h.Wf cfg) : h.mag = 0 → h.neg = false := hw.2.2.2.2.2.1

/-! ## The growth step (20_memory.md R59) -/

/-- A growth that was met is the fast path or an installed buffer (R61, R64). -/
theorem State.grow_ok (hg : s.grow i n = .ok t) :
    (wordsFor n ≤ (s.handle i).cap ∧ t = s) ∨
    ((s.handle i).cap < wordsFor n ∧ growWords s.cfg n ≤ s.cfg.maxWords ∧ growWords s.cfg n ≤ s.free.toNat ∧
      s.granted (growWords s.cfg n) = true ∧ t = s.nextTurn.install i (growWords s.cfg n)) := by
  unfold State.grow at hg
  split at hg
  · rename_i hf
    cases hg
    exact .inl ⟨hf, rfl⟩
  · split at hg
    · cases hg
    · split at hg
      · cases hg
        exact .inr ⟨by omega, by omega, by omega, by assumption, rfl⟩
      · cases hg

/-- A growth that failed changed nothing but the model's own counter, and could not be met (R60, R63). -/
theorem State.grow_oom (hg : s.grow i n = .oom t) : (t = s ∨ t = s.nextTurn) ∧ ¬ s.CanGrow i n := by
  unfold State.grow at hg
  split at hg
  · cases hg
  · split at hg
    · cases hg
      refine ⟨.inl rfl, ?_⟩
      unfold State.CanGrow
      omega
    · split at hg
      · cases hg
      · cases hg
        refine ⟨.inr rfl, ?_⟩
        unfold State.CanGrow
        simp_all

/-- A growth is met exactly when it can be (R60, R64). -/
theorem State.grow_ok_iff : (∃ t, s.grow i n = .ok t) ↔ s.CanGrow i n := by
  constructor
  · rintro ⟨t, hg⟩
    rcases State.grow_ok hg with ⟨hf, -⟩ | ⟨-, h1, h2, h3, -⟩
    · exact .inl hf
    · exact .inr ⟨h1, h2, h3⟩
  · intro hc
    cases hg : s.grow i n with
    | ok t => exact ⟨t, rfl⟩
    | oom t => exact absurd hc (State.grow_oom hg).2

/-- The record an installed buffer leaves in its handle (R61, 10_state.md R34). -/
theorem State.handle_install_same (hi : i.toNat < s.handles.length) :
    (s.install i n).handle i = (s.handle i).grown n := by
  simp only [State.install, State.handle_setFree]
  exact State.handle_setHandle_same s i _ hi

theorem State.handle_install_other (hij : i ≠ j) : (s.install i n).handle j = s.handle j := by
  simp only [State.install, State.handle_setFree]
  exact State.handle_setHandle_other s i j _ hij

/-- A growth changes no other handle and nothing of the host, the port, STATUS or RESULT (20_memory.md R57, R72). -/
theorem State.grow_frame (hg : s.grow i n = .ok t) :
    KeepsOutside s t (some i) ∧ t.status = s.status ∧ t.result = s.result := by
  rcases State.grow_ok hg with ⟨-, rfl⟩ | ⟨-, -, -, -, rfl⟩
  · exact ⟨⟨rfl, rfl, rfl, rfl, rfl, rfl, fun _ _ => rfl⟩, rfl, rfl⟩
  · refine ⟨⟨rfl, rfl, rfl, rfl, rfl, by simp [State.install], ?_⟩, rfl, rfl⟩
    intro j hj
    rw [State.handle_install_other (by simpa using hj)]
    rfl

/-- A growth keeps the value, the sign and the indeterminate flag (R61). -/
theorem State.grow_value (hi : i.toNat < s.handles.length) (hg : s.grow i n = .ok t) :
    (t.handle i).mag = (s.handle i).mag ∧ (t.handle i).msb = (s.handle i).msb ∧
    (t.handle i).neg = (s.handle i).neg ∧ (t.handle i).indet = (s.handle i).indet := by
  rcases State.grow_ok hg with ⟨-, rfl⟩ | ⟨-, -, -, -, rfl⟩
  · exact ⟨rfl, rfl, rfl, rfl⟩
  · rw [State.handle_install_same (by simpa using hi)]
    exact ⟨rfl, rfl, rfl, rfl⟩

/-- A growth leaves room for the bits asked for (R59). -/
theorem State.grow_room (hq : 1 ≤ s.cfg.quantum) (hi : i.toNat < s.handles.length) (hg : s.grow i n = .ok t) :
    n ≤ 32 * (t.handle i).cap := by
  rw [← wordsFor_le_iff]
  rcases State.grow_ok hg with ⟨hf, rfl⟩ | ⟨-, -, -, -, rfl⟩
  · exact hf
  · rw [State.handle_install_same (by simpa using hi)]
    exact le_roundUp hq _

/-! ## What an operation leaves outside one handle -/

theorem KeepsOutside.refl (s : State) (d : Option Index) : KeepsOutside s s d :=
  ⟨rfl, rfl, rfl, rfl, rfl, rfl, fun _ _ => rfl⟩

theorem KeepsOutside.trans {u : State} {d : Option Index} (h : KeepsOutside s t d) (h' : KeepsOutside t u d) :
    KeepsOutside s u d := by
  obtain ⟨a, b, c, e, f, g, k⟩ := h
  obtain ⟨a', b', c', e', f', g', k'⟩ := h'
  exact ⟨a'.trans a, b'.trans b, c'.trans c, e'.trans e, f'.trans f, g'.trans g, fun j hj => (k' j hj).trans (k j hj)⟩

theorem KeepsOutside.finish {d : Option Index} (h : KeepsOutside s t d) (c : Code) (r : Word) : KeepsOutside s (t.finish c r) d :=
  h

theorem KeepsOutside.raise {d : Option Index} (h : KeepsOutside s t d) (c : Code) : KeepsOutside s (t.raise c) d :=
  h

theorem KeepsOutside.nextTurn {d : Option Index} (h : KeepsOutside s t d) : KeepsOutside s t.nextTurn d :=
  h

theorem KeepsOutside.setFree {d : Option Index} (h : KeepsOutside s t d) (w : Word) : KeepsOutside s (t.setFree w) d :=
  h

theorem KeepsOutside.setHandle (k : KeepsOutside s t (some i)) (h : Handle) : KeepsOutside s (t.setHandle i h) (some i) := by
  obtain ⟨a, b, c, e, f, g, k⟩ := k
  refine ⟨a, b, c, e, f, by simpa using g, fun j hj => ?_⟩
  rw [State.handle_setHandle_other _ _ _ _ (by simpa using hj)]
  exact k j hj

/-- The growth step, met or not, changes no other handle and nothing of the host (20_memory.md R57, R72). -/
theorem KeepsOutside.grow (hg : s.grow i n = .ok t ∨ s.grow i n = .oom t) : KeepsOutside s t (some i) := by
  rcases hg with hg | hg
  · exact (State.grow_frame hg).1
  · rcases (State.grow_oom hg).1 with rfl | rfl
    · exact .refl _ _
    · exact (KeepsOutside.refl s _).nextTurn

/-! ## The invariant of a handle -/

/-- An exact snapshot is taken of every well-formed handle (41_arithmetic.md R140, 10_state.md R25). -/
theorem Handle.Wf.operand (hw : h.Wf cfg) : h.operand.Exact := by
  exact hw.length

/-- A well-formed handle's capacity is at most MAX_WORDS (10_state.md R22). -/
theorem Handle.Wf.cap_le (hl : cfg.Legal) (hw : h.Wf cfg) : h.cap ≤ cfg.maxWords := by
  obtain ⟨hu, hin, hh, -⟩ := hw
  cases hk : h.kind with
  | uninit => rw [(hu hk).1]; omega
  | inlined => rw [(hin hk).1]; exact hl.inline_le_max
  | heap => exact (hh hk).2.2

/-- An initialized handle has at least one word (00_scope.md R8). -/
theorem Handle.Wf.cap_pos (hl : cfg.Legal) (hw : h.Wf cfg) (hk : h.kind ≠ .uninit) : 1 ≤ h.cap := by
  obtain ⟨-, hin, hh, -⟩ := hw
  have h1 := hl.inline_pos
  cases hk' : h.kind with
  | uninit => exact absurd hk' hk
  | inlined => rw [(hin hk').1]; omega
  | heap => have := (hh hk').2.1; omega

theorem Handle.wf_reset : Handle.reset.Wf cfg := by
  simp [Handle.Wf, Handle.reset]

theorem Handle.wf_fresh : (Handle.fresh cfg).Wf cfg := by
  simp [Handle.Wf, Handle.fresh]

theorem Handle.Wf.cleared (hw : h.Wf cfg) : h.cleared.Wf cfg := by
  obtain ⟨hu, hin, hh, -, -, -, hb⟩ := hw
  refine ⟨fun hk => ⟨(hu hk).1, rfl, rfl, rfl, rfl⟩, hin, hh, ?_, ?_, fun _ => rfl, hb⟩ <;> simp [Handle.cleared]

theorem Handle.Wf.destroyed (hw : h.Wf cfg) : h.destroyed.Wf cfg := by
  obtain ⟨-, -, -, -, -, -, hb⟩ := hw
  simp only [Handle.Wf, Handle.destroyed]
  split <;> simp [hb]

/-- A bit length within the capacity fits the 32 bits of `msb` (00_scope.md R9). -/
theorem msb_exact (hl : cfg.Legal) (hc : h.cap ≤ cfg.maxWords) (hm : m < 2 ^ (32 * h.cap)) :
    (BitVec.ofNat 32 (bitlen m)).toNat = bitlen m := by
  have h1 := (bitlen_le_iff m (32 * h.cap)).2 hm
  have h2 := hl.max_bits
  rw [BitVec.toNat_ofNat, Nat.mod_eq_of_lt]
  omega

/-- The result write keeps a handle well formed where the result fits its capacity (41_arithmetic.md R141). -/
theorem Handle.Wf.store (hl : cfg.Legal) (hw : h.Wf cfg) (hk : h.kind ≠ .uninit) (hm : m < 2 ^ (32 * h.cap)) (neg : Bool) :
    (h.store m neg).Wf cfg := by
  have hc := hw.cap_le hl
  obtain ⟨-, hin, hh, -, -, -, hb⟩ := hw
  refine ⟨fun hu => absurd hu hk, hin, hh, hm, msb_exact hl hc hm, ?_, hb⟩
  intro h0
  simp only [Handle.store] at h0 ⊢
  simp [h0]

/-- The indeterminate flag of an initialized handle is free of the invariant (10_state.md R27). -/
theorem Handle.Wf.withIndet (hw : h.Wf cfg) (hk : h.kind ≠ .uninit) (b : Bool) : Handle.Wf cfg { h with indet := b } := by
  obtain ⟨-, hin, hh, hm, hl, hn, hb⟩ := hw
  exact ⟨fun hu => absurd hu hk, hin, hh, hm, hl, hn, hb⟩

/-- A copied value keeps a handle well formed where it fits (40_lifecycle.md R118). -/
theorem Handle.Wf.copied {src : Handle} (hw : h.Wf cfg) (hk : h.kind ≠ .uninit) (hs : src.Wf cfg)
    (hroom : src.msb.toNat ≤ 32 * h.cap) : (h.copied src).Wf cfg := by
  obtain ⟨-, hin, hh, -, -, -, hb⟩ := hw
  refine ⟨fun hu => absurd hu hk, hin, hh, ?_, hs.length, hs.sign, hb⟩
  rwa [hs.length, bitlen_le_iff] at hroom

/-- A positive magnitude keeps a handle well formed where it fits (41_arithmetic.md R164, R165). -/
theorem Handle.Wf.withMag (hl : cfg.Legal) (hw : h.Wf cfg) (hk : h.kind ≠ .uninit) (hm : m < 2 ^ (32 * h.cap)) (hpos : 0 < m) :
    (h.withMag m).Wf cfg := by
  have hc := hw.cap_le hl
  obtain ⟨-, hin, hh, -, -, -, hb⟩ := hw
  exact ⟨fun hu => absurd hu hk, hin, hh, hm, msb_exact hl hc hm, fun h0 => absurd h0 hpos.ne', hb⟩

/-! ## The handle file as a whole -/

theorem heapTotal_set : ∀ {hs : List Handle} {k : Nat} (hk : k < hs.length) (h : Handle),
    heapTotal (hs.set k h) + (hs[k]).heapWords = heapTotal hs + h.heapWords
  | _ :: _, 0, _, _ => by simp [heapTotal]; omega
  | _ :: hs, k + 1, hk, h => by
    have := heapTotal_set (hs := hs) (k := k) (by simpa using hk) h
    simp [heapTotal] at this ⊢
    omega

theorem heapTotal_replicate_reset (k : Nat) : heapTotal (List.replicate k Handle.reset) = 0 := by
  simp [heapTotal, Handle.heapWords, Handle.reset]

/-- The words of one heap buffer are part of the total (10_state.md R32). -/
theorem heapWords_le_total (hi : i.toNat < s.handles.length) : (s.handle i).heapWords ≤ heapTotal s.handles := by
  have h1 := heapTotal_set hi { Handle.reset with kind := .uninit }
  have h2 : s.handles[i.toNat] = s.handle i := by simp [State.handle, hi]
  rw [h2] at h1
  simp only [Handle.heapWords, Handle.reset] at h1
  simp at h1
  unfold Handle.heapWords
  omega

/-- An index that names a handle is in the handle file. -/
theorem State.Inv.index (hs : s.Inv) (hi : s.Names i) : i.toNat < s.handles.length := by
  rw [hs.2.1]
  simpa [State.Names, Config.names] using hi

theorem State.Inv.handle (hs : s.Inv) (hi : s.Names i) : (s.handle i).Wf s.cfg :=
  hs.2.2.1 _ (State.handle_mem s i (hs.index hi))

/-- STATUS as the block writes it is well formed (10_state.md R30). -/
theorem statusWf_word (c : Code) (b : Bool) : StatusWf (statusWord c b) := by
  cases c <;> cases b <;> decide

@[simp] theorem statusCode_word (c : Code) (b : Bool) : statusCode (statusWord c b) = c.value := by
  cases c <;> cases b <;> decide

@[simp] theorem statusSticky_word (c : Code) (b : Bool) : statusSticky (statusWord c b) = b := by
  cases c <;> cases b <;> decide

theorem State.Inv.finish (hs : s.Inv) (c : Code) (r : Word) : (s.finish c r).Inv := by
  obtain ⟨h1, h2, h3, h4, -, h6⟩ := hs
  exact ⟨h1, h2, h3, h4, statusWf_word _ _, h6⟩

theorem State.Inv.raise (hs : s.Inv) (c : Code) : (s.raise c).Inv :=
  hs.finish c 0

theorem State.Inv.rest (hs : s.Inv) : s.rest.Inv :=
  ⟨hs.1, hs.2.1, hs.2.2.1, hs.2.2.2.1, hs.2.2.2.2.1, rfl⟩

theorem State.Inv.respond (hs : s.Inv) (n : Nat) : (s.respond n).Inv :=
  ⟨hs.1, hs.2.1, hs.2.2.1, hs.2.2.2.1, hs.2.2.2.2.1, rfl⟩

theorem State.Inv.nextTurn (hs : s.Inv) : s.nextTurn.Inv :=
  hs

/-- Writing a well-formed record, with FREE adjusted by the heap words it gains or gives back, keeps the invariant. -/
theorem State.Inv.setHandleFree (hs : s.Inv) (hi : s.Names i) (hw : h.Wf s.cfg)
    (hf : w.toNat + h.heapWords = s.free.toNat + (s.handle i).heapWords) :
    ((s.setHandle i h).setFree w).Inv := by
  have hlen := hs.index hi
  obtain ⟨h1, h2, h3, h4, h5, h6⟩ := hs
  refine ⟨h1, by simpa using h2, ?_, ?_, h5, h6⟩
  · intro x hx
    rcases List.mem_or_eq_of_mem_set hx with hx | rfl
    · exact h3 x hx
    · exact hw
  · have ht := heapTotal_set hlen h
    have hg : s.handles[i.toNat] = s.handle i := by simp [State.handle, hlen]
    rw [hg] at ht
    show w.toNat + heapTotal (s.handles.set i.toNat h) = s.cfg.poolWords
    omega

theorem State.Inv.setHandle (hs : s.Inv) (hi : s.Names i) (hw : h.Wf s.cfg) (hf : h.heapWords = (s.handle i).heapWords) :
    (s.setHandle i h).Inv :=
  hs.setHandleFree (w := s.free) hi hw (by omega)

/-- The words FREE holds when an installed buffer of `n` words has replaced the old one (20_memory.md R61, R62). -/
theorem free_after_install (hs : s.Inv) (hi : s.Names i) (hn : n ≤ s.free.toNat) :
    (s.free - BitVec.ofNat 32 n + BitVec.ofNat 32 (s.handle i).heapWords).toNat + n =
      s.free.toNat + (s.handle i).heapWords := by
  have h1 := heapWords_le_total (s := s) (hs.index hi)
  have h2 := hs.2.2.2.1
  have h3 := hs.legal.pool_le
  have h4 := s.free.isLt
  simp only [BitVec.toNat_add, BitVec.toNat_sub, BitVec.toNat_ofNat]
  omega

/-- Moving to a larger heap buffer keeps a handle well formed (10_state.md R22, R26; 20_memory.md R61). -/
theorem Handle.Wf.grown (hw : h.Wf cfg) (hk : h.kind ≠ .uninit) (hq : n % cfg.quantum = 0) (hcap : h.cap < n)
    (hmax : n ≤ cfg.maxWords) : (h.grown n).Wf cfg := by
  obtain ⟨-, hin, hh, hm, hb, hneg, hbuf⟩ := hw
  have hbig : cfg.inlineWords < n := by
    cases hkind : h.kind with
    | uninit => exact absurd hkind hk
    | inlined => have := (hin hkind).1; omega
    | heap => have := (hh hkind).2.1; omega
  refine ⟨fun hu => by simp [Handle.grown] at hu, fun hu => by simp [Handle.grown] at hu, fun _ => ⟨hq, hbig, hmax⟩,
    lt_of_lt_of_le hm (Nat.pow_le_pow_right (by omega) (Nat.mul_le_mul_left 32 hcap.le)), hb, hneg, ?_⟩
  by_cases hkind : h.kind = .inlined
  · simpa [Handle.grown, hkind, (hin hkind).1] using hm
  · simpa [Handle.grown, hkind] using hbuf

/-- The growth step keeps the invariant (10_state.md R22, R26, R32). -/
theorem State.Inv.grow (hs : s.Inv) (hi : s.Names i) (hk : (s.handle i).kind ≠ .uninit) (hg : s.grow i n = .ok t) : t.Inv := by
  rcases State.grow_ok hg with ⟨-, rfl⟩ | ⟨hlt, hmax, hfree, -, rfl⟩
  · exact hs
  · have hroom : wordsFor n ≤ growWords s.cfg n := le_roundUp hs.legal.quantum_pos _
    exact State.Inv.setHandleFree (s := s.nextTurn) hs.nextTurn hi
      ((hs.handle hi).grown hk (roundUp_mod _ _) (by omega) hmax) (free_after_install hs hi hfree)

/-- The kind of a grown handle is not UNINIT where it was not. -/
theorem State.grow_kind (hi : i.toNat < s.handles.length) (hk : (s.handle i).kind ≠ .uninit) (hg : s.grow i n = .ok t) :
    (t.handle i).kind ≠ .uninit := by
  rcases State.grow_ok hg with ⟨-, rfl⟩ | ⟨-, -, -, -, rfl⟩
  · exact hk
  · rw [State.handle_install_same (by simpa using hi)]
    simp [Handle.grown]

/-- A record update that leaves kind and capacity leaves the heap words. -/
theorem Handle.heapWords_store (h : Handle) (m : Nat) (neg : Bool) : (h.store m neg).heapWords = h.heapWords := rfl

/-- The result write keeps the invariant where the result fits (41_arithmetic.md R141). -/
theorem State.Inv.writeResult (hs : s.Inv) (hi : s.Names i) (hk : (s.handle i).kind ≠ .uninit)
    (hm : m < 2 ^ (32 * (s.handle i).cap)) (neg : Bool) : (s.writeResult i m neg).Inv :=
  (hs.setHandle hi ((hs.handle hi).store hs.1 hk hm neg) rfl).finish _ _

/-- The weak failure keeps the invariant, whatever the draw (41_arithmetic.md R146, 10_state.md R27). -/
theorem State.Inv.failWeak (hs : s.Inv) (hi : s.Names i) (hk : (s.handle i).kind ≠ .uninit) : (s.failWeak i).Inv := by
  have hm : Config.freeMagnitude s.turn % 2 ^ (32 * (s.handle i).cap) < 2 ^ (32 * (s.handle i).cap) :=
    Nat.mod_lt _ (by positivity)
  have hw := (hs.handle hi).store hs.1 hk hm (Config.freeSign s.turn)
  exact (hs.setHandle (h := (s.handle i).drawn s.turn) hi (hw.withIndet hk true) rfl).nextTurn.raise _

/-! ## Checks -/

theorem State.badIndex_eq_false_iff (is : List Index) : s.badIndex is = false ↔ ∀ i ∈ is, s.Names i := by
  simp [State.badIndex]

theorem State.initialized_iff : s.initialized i = true ↔ (s.handle i).kind ≠ .uninit := by
  simp [State.initialized]

theorem State.readable_iff : s.readable i = true ↔ (s.handle i).kind ≠ .uninit ∧ (s.handle i).indet = false := by
  simp [State.readable, State.initialized]

end Sys2Proof.Machine
end

