-- ==== Sys2Proof/Laws/Meanings.lean ====
section
/-!
SUPPORT. For each operation that several meanings share, everything it can do, said once, and the exact value of a signed sum.
-/

namespace Sys2Proof.Machine

variable {s t : State} {d : Index} {n m : Nat} {neg : Bool} {x y : Operand}

/-- The growth step of GROW ends in one of two ways (40_lifecycle.md R106, R108). -/
theorem State.growCommand_cases (s : State) (d : Index) (n : Nat) :
    (∃ t, s.grow d n = .ok t ∧ s.growCommand d n = t.finish .ok 0) ∨
    (∃ t, s.grow d n = .oom t ∧ s.growCommand d n = t.raise .outOfMemory) := by
  unfold State.growCommand
  cases hg : s.grow d n with
  | ok t => exact .inl ⟨t, rfl, rfl⟩
  | oom t => exact .inr ⟨t, rfl, rfl⟩

/-- The growth step and result write of the weakly failing commands end in one of two ways (41_arithmetic.md R141, R146). -/
theorem State.growWrite_cases (s : State) (d : Index) (n m : Nat) (neg : Bool) :
    (∃ t, s.grow d n = .ok t ∧ s.growWrite d n m neg = t.writeResult d m neg) ∨
    (∃ t, s.grow d n = .oom t ∧ s.growWrite d n m neg = t.failWeak d) := by
  unfold State.growWrite
  cases hg : s.grow d n with
  | ok t => exact .inl ⟨t, rfl, rfl⟩
  | oom t => exact .inr ⟨t, rfl, rfl⟩

theorem KeepsOutside.growCommand (s : State) (d : Index) (n : Nat) : KeepsOutside s (s.growCommand d n) (some d) := by
  rcases s.growCommand_cases d n with ⟨t, hg, he⟩ | ⟨t, hg, he⟩ <;> rw [he]
  · exact (KeepsOutside.grow (.inl hg)).finish _ _
  · exact (KeepsOutside.grow (.inr hg)).raise _

theorem KeepsOutside.growWrite (s : State) (d : Index) (n m : Nat) (neg : Bool) :
    KeepsOutside s (s.growWrite d n m neg) (some d) := by
  rcases s.growWrite_cases d n m neg with ⟨t, hg, he⟩ | ⟨t, hg, he⟩ <;> rw [he]
  · exact ((KeepsOutside.grow (.inl hg)).setHandle _).finish _ _
  · exact (((KeepsOutside.grow (.inr hg)).setHandle _).nextTurn).raise _

/-- A signed sum is one growth and one result write, for the bits of R145, of a magnitude that fits them, and it leaves the exact sum of
the values (41_arithmetic.md R143, R144, R147). -/
theorem State.signedSum_eq (s : State) (d : Index) (hx : x.Exact) (hy : y.Exact) :
    ∃ m neg, s.signedSum d x y = s.growWrite d (signedBits x y) m neg ∧ m < 2 ^ signedBits x y ∧
      (if neg then -(m : Int) else m) =
        (if x.neg then -(x.mag : Int) else x.mag) + (if y.neg then -(y.mag : Int) else y.mag) := by
  unfold State.signedSum signedBits
  split
  · rename_i h
    refine ⟨_, _, rfl, by rw [sumMag_exact hx hy]; exact sum_lt_addBits hx hy, ?_⟩
    rw [sumMag_exact hx hy, ← h]
    split <;> push_cast <;> omega
  · rename_i h
    refine ⟨_, _, rfl, by rw [diffMag_exact hx hy]; exact diff_lt_subBits hx hy, ?_⟩
    rw [diffMag_exact hx hy]
    rcases hxn : x.neg <;> rcases hyn : y.neg <;> simp_all <;> split <;> omega

/-- The record a met growth and a result write leave in the destination (41_arithmetic.md R141). -/
theorem State.handle_writeResult (hi : d.toNat < s.handles.length) :
    (s.writeResult d m neg).handle d = (s.handle d).store m neg := by
  simp only [State.writeResult, State.handle_finish]
  exact State.handle_setHandle_same s d _ hi

/-- The record a weak failure leaves in the destination (41_arithmetic.md R146). -/
theorem State.handle_failWeak (hi : d.toNat < s.handles.length) :
    (s.failWeak d).handle d = (s.handle d).drawn s.turn := by
  simp only [State.failWeak, State.handle_raise, State.handle_nextTurn]
  exact State.handle_setHandle_same s d _ hi

/-- What a met growth leaves of kind, capacity and FREE, in the terms of `GrewTo` (20_memory.md R61, R62, R64). -/
theorem State.grewTo_of_grow (hs : s.Inv) (hi : s.Names d) (hg : s.grow d n = .ok t) : GrewTo s t d n := by
  unfold GrewTo
  rcases State.grow_ok hg with ⟨hf, rfl⟩ | ⟨hlt, -, hfree, -, rfl⟩
  · rw [if_pos hf]
    exact ⟨rfl, rfl, rfl⟩
  · rw [if_neg (by omega), State.handle_install_same (by simpa using hs.index hi)]
    exact ⟨rfl, rfl, free_after_install hs hi hfree⟩

/-! ## The checks the families share (60_exceptions.md R212, R213) -/

/-- The checks of the four three-operand commands pass exactly where the command is `Ready`. -/
theorem State.arithRefused_eq_false_iff {a b : Index} : s.arithRefused d a b = false ↔ s.Ready d [a, b] := by
  simp only [State.arithRefused, State.Ready, Bool.or_eq_false_iff, Bool.not_eq_false', State.badIndex_eq_false_iff, List.mem_cons,
    List.not_mem_nil, or_false, forall_eq_or_imp, forall_eq]
  tauto

/-- The checks of a comparison pass exactly where both handles exist and are readable. -/
theorem State.compareRefused_eq_false_iff {a b : Index} :
    s.compareRefused a b = false ↔ (s.Names a ∧ s.Names b) ∧ s.readable a = true ∧ s.readable b = true := by
  simp only [State.compareRefused, Bool.or_eq_false_iff, Bool.not_eq_false', State.badIndex_eq_false_iff, List.mem_cons,
    List.not_mem_nil, or_false, forall_eq_or_imp, forall_eq, and_assoc]

/-- The checks of a query pass exactly where the handle exists and is readable. -/
theorem State.queryRefused_eq_false_iff {a : Index} : s.queryRefused a = false ↔ s.Names a ∧ s.readable a = true := by
  simp only [State.queryRefused, Bool.or_eq_false_iff, Bool.not_eq_false', State.badIndex_eq_false_iff, List.mem_cons,
    List.not_mem_nil, or_false, forall_eq]

/-! ## The shared operations keep the invariant -/

theorem State.Inv.growCommand (hs : s.Inv) (hi : s.Names d) (hk : (s.handle d).kind ≠ .uninit) : (s.growCommand d n).Inv := by
  rcases s.growCommand_cases d n with ⟨t, hg, he⟩ | ⟨t, hg, he⟩ <;> rw [he]
  · exact (hs.grow hi hk hg).finish _ _
  · rcases (State.grow_oom hg).1 with rfl | rfl
    · exact hs.raise _
    · exact hs.nextTurn.raise _

theorem State.Inv.growWrite (hs : s.Inv) (hi : s.Names d) (hk : (s.handle d).kind ≠ .uninit) (hm : m < 2 ^ n) (neg : Bool) :
    (s.growWrite d n m neg).Inv := by
  rcases s.growWrite_cases d n m neg with ⟨t, hg, he⟩ | ⟨t, hg, he⟩ <;> rw [he]
  · have hi' : t.Names d := by rw [State.Names, (State.grow_frame hg).1.1]; exact hi
    refine (hs.grow hi hk hg).writeResult hi' (State.grow_kind (hs.index hi) hk hg) ?_ _
    exact lt_of_lt_of_le hm (Nat.pow_le_pow_right (by omega) (State.grow_room hs.1.quantum_pos (hs.index hi) hg))
  · rcases (State.grow_oom hg).1 with rfl | rfl
    · exact hs.failWeak hi hk
    · exact hs.nextTurn.failWeak hi hk

end Sys2Proof.Machine
end

