-- ==== Sys2Proof/Laws/PerInstr.lean ====
section
/-!
SUPPORT. The words of each command, instruction by instruction: the command word's opcode field is the command's, every field its format does not
use is zero, and the extension word is there exactly where the format has one (30_encoding.md R81, R83, R86, R87).
-/

namespace Sys2Proof.Laws.Encoded

/-- The words of a command have the form its opcode's format gives them (30_encoding.md R81, R83, R86, R87). -/
def Statement (i : Instr) : Prop :=
  ∃ w ext, encode i = w :: ext ∧ opField w = i.opcode.value ∧ i.opcode.format.reservedZero w = true ∧
    ext.length = if i.opcode.format.usesExt then 1 else 0

theorem init (d : Index) : Statement (.init d) :=
  ⟨_, _, rfl, by simp [Instr.opcode, Opcode.value],
    by simp [Instr.opcode, Opcode.format, Format.reservedZero, Format.usesXD, Format.usesXA, Format.usesXB], rfl⟩

theorem destroy (d : Index) : Statement (.destroy d) :=
  ⟨_, _, rfl, by simp [Instr.opcode, Opcode.value],
    by simp [Instr.opcode, Opcode.format, Format.reservedZero, Format.usesXD, Format.usesXA, Format.usesXB], rfl⟩

theorem grow (d : Index) (ext : Word) : Statement (.grow d ext) :=
  ⟨_, _, rfl, by simp [Instr.opcode, Opcode.value],
    by simp [Instr.opcode, Opcode.format, Format.reservedZero, Format.usesXD, Format.usesXA, Format.usesXB], rfl⟩

theorem zero (d : Index) : Statement (.zero d) :=
  ⟨_, _, rfl, by simp [Instr.opcode, Opcode.value],
    by simp [Instr.opcode, Opcode.format, Format.reservedZero, Format.usesXD, Format.usesXA, Format.usesXB], rfl⟩

theorem seti (d : Index) (ext : Word) : Statement (.seti d ext) :=
  ⟨_, _, rfl, by simp [Instr.opcode, Opcode.value],
    by simp [Instr.opcode, Opcode.format, Format.reservedZero, Format.usesXD, Format.usesXA, Format.usesXB], rfl⟩

theorem copy (d a : Index) : Statement (.copy d a) :=
  ⟨_, _, rfl, by simp [Instr.opcode, Opcode.value],
    by simp [Instr.opcode, Opcode.format, Format.reservedZero, Format.usesXD, Format.usesXA, Format.usesXB], rfl⟩

theorem add (d a b : Index) : Statement (.add d a b) :=
  ⟨_, _, rfl, by simp [Instr.opcode, Opcode.value],
    by simp [Instr.opcode, Opcode.format, Format.reservedZero, Format.usesXD, Format.usesXA, Format.usesXB], rfl⟩

theorem sub (d a b : Index) : Statement (.sub d a b) :=
  ⟨_, _, rfl, by simp [Instr.opcode, Opcode.value],
    by simp [Instr.opcode, Opcode.format, Format.reservedZero, Format.usesXD, Format.usesXA, Format.usesXB], rfl⟩

theorem addabs (d a b : Index) : Statement (.addabs d a b) :=
  ⟨_, _, rfl, by simp [Instr.opcode, Opcode.value],
    by simp [Instr.opcode, Opcode.format, Format.reservedZero, Format.usesXD, Format.usesXA, Format.usesXB], rfl⟩

theorem subabs (d a b : Index) : Statement (.subabs d a b) :=
  ⟨_, _, rfl, by simp [Instr.opcode, Opcode.value],
    by simp [Instr.opcode, Opcode.format, Format.reservedZero, Format.usesXD, Format.usesXA, Format.usesXB], rfl⟩

theorem incabs (d : Index) : Statement (.incabs d) :=
  ⟨_, _, rfl, by simp [Instr.opcode, Opcode.value],
    by simp [Instr.opcode, Opcode.format, Format.reservedZero, Format.usesXD, Format.usesXA, Format.usesXB], rfl⟩

theorem cmp (a b : Index) : Statement (.cmp a b) :=
  ⟨_, _, rfl, by simp [Instr.opcode, Opcode.value],
    by simp [Instr.opcode, Opcode.format, Format.reservedZero, Format.usesXD, Format.usesXA, Format.usesXB], rfl⟩

theorem cmpabs (a b : Index) : Statement (.cmpabs a b) :=
  ⟨_, _, rfl, by simp [Instr.opcode, Opcode.value],
    by simp [Instr.opcode, Opcode.format, Format.reservedZero, Format.usesXD, Format.usesXA, Format.usesXB], rfl⟩

theorem qmsb (a : Index) : Statement (.qmsb a) :=
  ⟨_, _, rfl, by simp [Instr.opcode, Opcode.value],
    by simp [Instr.opcode, Opcode.format, Format.reservedZero, Format.usesXD, Format.usesXA, Format.usesXB], rfl⟩

theorem qneg (a : Index) : Statement (.qneg a) :=
  ⟨_, _, rfl, by simp [Instr.opcode, Opcode.value],
    by simp [Instr.opcode, Opcode.format, Format.reservedZero, Format.usesXD, Format.usesXA, Format.usesXB], rfl⟩

theorem qcap (a : Index) : Statement (.qcap a) :=
  ⟨_, _, rfl, by simp [Instr.opcode, Opcode.value],
    by simp [Instr.opcode, Opcode.format, Format.reservedZero, Format.usesXD, Format.usesXA, Format.usesXB], rfl⟩

theorem qword (a : Index) (ext : Word) : Statement (.qword a ext) :=
  ⟨_, _, rfl, by simp [Instr.opcode, Opcode.value],
    by simp [Instr.opcode, Opcode.format, Format.reservedZero, Format.usesXD, Format.usesXA, Format.usesXB], rfl⟩

theorem qstate (a : Index) : Statement (.qstate a) :=
  ⟨_, _, rfl, by simp [Instr.opcode, Opcode.value],
    by simp [Instr.opcode, Opcode.format, Format.reservedZero, Format.usesXD, Format.usesXA, Format.usesXB], rfl⟩

theorem qfree : Statement (.qfree) :=
  ⟨_, _, rfl, by simp [Instr.opcode, Opcode.value],
    by simp [Instr.opcode, Opcode.format, Format.reservedZero, Format.usesXD, Format.usesXA, Format.usesXB], rfl⟩

end Sys2Proof.Laws.Encoded
end

