-- ==== Sys2Proof/Laws/Step.lean ====
section
/-!
SUPPORT. What a step can do, said once: its four cases, and the words a fetch gives.
-/

namespace Sys2Proof.Machine

variable {s t : State} {w : Word} {ws : List Word}

/-- The words of a fetched command: its command word and as many words as its opcode says (30_encoding.md R89). -/
theorem State.fetch_command (h : s.fetch = .command ws) :
    ∃ w, s.commandWord? = some w ∧ ws.length = commandLength w ∧
      (ws = [w] ∨ ∃ ext, s.program[s.pc + 1]? = some ext ∧ ws = [w, ext]) := by
  unfold State.fetch at h
  split at h
  · cases h
  · rename_i w hw
    split at h
    · rename_i hc
      cases h
      exact ⟨w, hw, by simp [hc], .inl rfl⟩
    · rename_i hc
      split at h
      · cases h
      · rename_i ext he
        cases h
        have := commandLength_le_two w
        exact ⟨w, hw, by simp; omega, .inr ⟨ext, he, rfl⟩⟩

/-- A block that waits for an extension word holds a two-word command's word (70_reset_and_hazards.md R256). -/
theorem State.fetch_incomplete (h : s.fetch = .incomplete w) : s.commandWord? = some w ∧ commandLength w = 2 := by
  unfold State.fetch at h
  split at h
  · cases h
  · rename_i w' hw
    split at h
    · cases h
    · rename_i hc
      split at h
      · cases h
        have := commandLength_le_two w
        exact ⟨hw, by omega⟩
      · cases h

/-- Where no command word is held, the command word is the one at the host's pointer. -/
theorem State.commandWord?_eq (h : ∀ w, s.port ≠ .awaitExt w) : s.commandWord? = s.program[s.pc]? := by
  unfold State.commandWord?
  split
  · rename_i w hw
    exact absurd hw (h w)
  · rfl
  · rfl

/-- A step without a reset, in a configuration of this hardware, is decided by what is fetched. -/
theorem step_of_fetch (hl : s.cfg.Legal) (hr : s.resetRequest = false) :
    step s =
      match s.fetch with
      | .nothing => .next s.rest
      | .incomplete w => .next (s.wait w)
      | .command ws =>
        match decode ws with
        | .ok (i, _) => retire ws.length (exec i s)
        | .error _ => retire ws.length (.next s.illegal) := by
  unfold step
  exact (if_neg (by simp [hl])).trans (if_neg (by simp [hr]))

/-- Everything a step that answers a next state can have done. -/
theorem step_cases (h : step s = .next t) :
    s.cfg.Legal ∧
    ((s.resetRequest = true ∧ t = s.takeReset) ∨
     (s.resetRequest = false ∧
      ((s.fetch = .nothing ∧ t = s.rest) ∨
       (∃ w, s.fetch = .incomplete w ∧ t = s.wait w) ∨
       (∃ ws i rest u, s.fetch = .command ws ∧ decode ws = .ok (i, rest) ∧ exec i s = .next u ∧ t = u.respond ws.length) ∨
       (∃ ws e, s.fetch = .command ws ∧ decode ws = .error e ∧ t = s.illegal.respond ws.length)))) := by
  unfold step at h
  split at h
  · cases h
  rename_i hl
  refine ⟨by simpa using hl, ?_⟩
  split at h
  · rename_i hr
    cases h
    exact .inl ⟨hr, rfl⟩
  rename_i hr
  refine .inr ⟨by simpa using hr, ?_⟩
  split at h
  · rename_i hf
    cases h
    exact .inl ⟨hf, rfl⟩
  · rename_i w hf
    cases h
    exact .inr (.inl ⟨w, hf, rfl⟩)
  · rename_i ws hf
    split at h
    · rename_i i rest hd
      cases he : exec i s with
      | next u =>
        rw [he] at h
        cases h
        exact .inr (.inr (.inl ⟨ws, i, rest, u, hf, hd, he, rfl⟩))
      | fault f => cases f
      | refused r =>
        rw [he] at h
        cases h
    · rename_i e hd
      cases h
      exact .inr (.inr (.inr ⟨ws, e, hf, hd, rfl⟩))

end Sys2Proof.Machine
end

