-- ==== Sys2Proof/Machine/Asm.lean ====
section
/-!
DEFINITION. The assembler's text form of a command (30_encoding.md R91, R92): a line is read from its characters, a pseudo-instruction
becomes the command it stands for, and a command is printed back.
-/

namespace Sys2Proof

open Machine

/-- The value of a decimal digit. -/
def decDigit? (c : Char) : Option Nat :=
  if 48 ≤ c.toNat ∧ c.toNat ≤ 57 then some (c.toNat - 48) else none

/-- The value of a hexadecimal digit, in either case. -/
def hexDigit? (c : Char) : Option Nat :=
  if 48 ≤ c.toNat ∧ c.toNat ≤ 57 then some (c.toNat - 48)
  else if 65 ≤ c.toNat ∧ c.toNat ≤ 70 then some (c.toNat - 55)
  else if 97 ≤ c.toNat ∧ c.toNat ≤ 102 then some (c.toNat - 87)
  else none

/-- The number a run of digits spells after the digits already read. -/
def digitsFrom (base : Nat) (digit : Char → Option Nat) : List Char → Nat → Option Nat
  | [], acc => some acc
  | c :: cs, acc =>
    match digit c with
    | none => none
    | some v => digitsFrom base digit cs (acc * base + v)

/-- The number that one or more decimal digits spell. -/
def decimal? : List Char → Option Nat
  | [] => none
  | c :: cs => digitsFrom 10 decDigit? (c :: cs) 0

/-- The number that one or more hexadecimal digits spell. -/
def hexadecimal? : List Char → Option Nat
  | [] => none
  | c :: cs => digitsFrom 16 hexDigit? (c :: cs) 0

/-- A handle operand: `x` and a decimal index up to 255 (R91). -/
def asmHandle? : List Char → Option Index
  | 'x' :: cs =>
    match decimal? cs with
    | some n => if n < 256 then some (BitVec.ofNat 8 n) else none
    | none => none
  | _ => none

/-- An immediate operand as it is written (R91). -/
inductive Immediate where
  | dec (v : Int)
  | hex (v : Nat)
  deriving DecidableEq, Repr

/-- An immediate operand: `#` and a decimal integer with an optional `-`, or `#0x` and hexadecimal digits (R91). -/
def asmImmediate? : List Char → Option Immediate
  | '#' :: '0' :: 'x' :: cs => (hexadecimal? cs).map Immediate.hex
  | '#' :: '-' :: cs => (decimal? cs).map (fun n => Immediate.dec (-(n : Int)))
  | '#' :: cs => (decimal? cs).map (fun n => Immediate.dec n)
  | _ => none

/-- The extension word of GROW and QWORD: 0 to 4294967295 (R91). -/
def Immediate.unsigned? : Immediate → Option Word
  | .dec v => if 0 ≤ v ∧ v < 2 ^ 32 then some (BitVec.ofInt 32 v) else none
  | .hex v => if v < 2 ^ 32 then some (BitVec.ofNat 32 v) else none

/-- The extension word of SETI: -2147483648 to 2147483647, or the raw pattern in hexadecimal (R91). -/
def Immediate.signed? : Immediate → Option Word
  | .dec v => if -2 ^ 31 ≤ v ∧ v < 2 ^ 31 then some (BitVec.ofInt 32 v) else none
  | .hex v => if v < 2 ^ 32 then some (BitVec.ofNat 32 v) else none

/-- The pieces of a text between commas, spaces left out. -/
def splitOperands : List Char → List Char → List (List Char)
  | [], piece => [piece.reverse]
  | c :: cs, piece =>
    if c = ',' then piece.reverse :: splitOperands cs []
    else if c = ' ' then splitOperands cs piece
    else splitOperands cs (c :: piece)

/-- The operand texts of a line: none where only spaces follow the mnemonic. -/
def operandTexts (cs : List Char) : List (List Char) :=
  if cs.all (· == ' ') then [] else splitOperands cs []

/-- The opcode a mnemonic names (R86). -/
def Opcode.ofMnemonic? (m : List Char) : Option Opcode :=
  if m = ['I', 'N', 'I', 'T'] then some .init
  else if m = ['D', 'E', 'S', 'T', 'R', 'O', 'Y'] then some .destroy
  else if m = ['G', 'R', 'O', 'W'] then some .grow
  else if m = ['Z', 'E', 'R', 'O'] then some .zero
  else if m = ['S', 'E', 'T', 'I'] then some .seti
  else if m = ['C', 'O', 'P', 'Y'] then some .copy
  else if m = ['A', 'D', 'D'] then some .add
  else if m = ['S', 'U', 'B'] then some .sub
  else if m = ['A', 'D', 'D', 'A', 'B', 'S'] then some .addabs
  else if m = ['S', 'U', 'B', 'A', 'B', 'S'] then some .subabs
  else if m = ['I', 'N', 'C', 'A', 'B', 'S'] then some .incabs
  else if m = ['C', 'M', 'P'] then some .cmp
  else if m = ['C', 'M', 'P', 'A', 'B', 'S'] then some .cmpabs
  else if m = ['Q', 'M', 'S', 'B'] then some .qmsb
  else if m = ['Q', 'N', 'E', 'G'] then some .qneg
  else if m = ['Q', 'C', 'A', 'P'] then some .qcap
  else if m = ['Q', 'W', 'O', 'R', 'D'] then some .qword
  else if m = ['Q', 'S', 'T', 'A', 'T', 'E'] then some .qstate
  else if m = ['Q', 'F', 'R', 'E', 'E'] then some .qfree
  else none

/-- The extension word an opcode takes from an immediate (R91). -/
def Opcode.immediate? (o : Opcode) (v : Immediate) : Option Word :=
  if o = .seti then v.signed? else v.unsigned?

/-- The command an opcode and its operand texts spell, in the operand order of the opcode's format (R91). -/
def Opcode.assemble? (o : Opcode) (ops : List (List Char)) : Option Instr :=
  match o.format, ops with
  | .f0, [] => some (o.build (commandWord o.value 0 0 0) 0)
  | .fd, [d] => do
    let d ← asmHandle? d
    some (o.build (commandWord o.value d 0 0) 0)
  | .fdi, [d, v] => do
    let d ← asmHandle? d
    let v ← asmImmediate? v
    let ext ← o.immediate? v
    some (o.build (commandWord o.value d 0 0) ext)
  | .fda, [d, a] => do
    let d ← asmHandle? d
    let a ← asmHandle? a
    some (o.build (commandWord o.value d a 0) 0)
  | .fdab, [d, a, b] => do
    let d ← asmHandle? d
    let a ← asmHandle? a
    let b ← asmHandle? b
    some (o.build (commandWord o.value d a b) 0)
  | .fab, [a, b] => do
    let a ← asmHandle? a
    let b ← asmHandle? b
    some (o.build (commandWord o.value 0 a b) 0)
  | .fa, [a] => do
    let a ← asmHandle? a
    some (o.build (commandWord o.value 0 a 0) 0)
  | .fai, [a, v] => do
    let a ← asmHandle? a
    let v ← asmImmediate? v
    let ext ← o.immediate? v
    some (o.build (commandWord o.value 0 a 0) ext)
  | _, _ => none

/-- The pseudo-instruction a mnemonic and its operand texts spell (R92). -/
def Pseudo.assemble? (m : List Char) (ops : List (List Char)) : Option Pseudo :=
  if m = ['M', 'O', 'V'] then
    match ops with
    | [d, a] => do some (.mov (← asmHandle? d) (← asmHandle? a))
    | _ => none
  else if m = ['C', 'L', 'R'] then
    match ops with
    | [d] => do some (.clr (← asmHandle? d))
    | _ => none
  else if m = ['L', 'I'] then
    match ops with
    | [d, v] => do some (.li (← asmHandle? d) (← (← asmImmediate? v).signed?))
    | _ => none
  else if m = ['D', 'B', 'L'] then
    match ops with
    | [d, a] => do some (.dbl (← asmHandle? d) (← asmHandle? a))
    | _ => none
  else none

/-- The command of one line of assembly text: the mnemonic, a space, and the operands separated by commas (R91), or a pseudo-instruction
(R92). None where the assembler refuses the line. -/
def assembleLine (line : List Char) : Option Instr :=
  let m := line.takeWhile (· != ' ')
  let ops := operandTexts (line.dropWhile (· != ' '))
  match Opcode.ofMnemonic? m with
  | some o => o.assemble? ops
  | none => (Pseudo.assemble? m ops).map Pseudo.expand

/-- The words of an assembled program, one command a line; none where a line is refused. -/
def assembleProgram : List (List Char) → Option (List Word)
  | [] => some []
  | line :: rest => do
    let i ← assembleLine line
    let ws ← assembleProgram rest
    some (encode i ++ ws)

/-- A handle as it is printed (R91). -/
def printHandle (i : Index) : String :=
  "x" ++ toString i.toNat

/-- A command as a disassembler prints it; never a pseudo-instruction (R91, R92). R91 reads an immediate in decimal and in hexadecimal and R92 names
neither for printing: that GROW and QWORD print theirs in unsigned decimal and SETI in signed decimal, one space after the mnemonic and after
each comma, is the model's choice (DESIGN CHOICE, log entry 12). -/
def Instr.print : Instr → String
  | .init d => "INIT " ++ printHandle d
  | .destroy d => "DESTROY " ++ printHandle d
  | .grow d ext => "GROW " ++ printHandle d ++ ", #" ++ toString (extUnsigned ext)
  | .zero d => "ZERO " ++ printHandle d
  | .seti d ext => "SETI " ++ printHandle d ++ ", #" ++ toString (extSigned ext)
  | .copy d a => "COPY " ++ printHandle d ++ ", " ++ printHandle a
  | .add d a b => "ADD " ++ printHandle d ++ ", " ++ printHandle a ++ ", " ++ printHandle b
  | .sub d a b => "SUB " ++ printHandle d ++ ", " ++ printHandle a ++ ", " ++ printHandle b
  | .addabs d a b => "ADDABS " ++ printHandle d ++ ", " ++ printHandle a ++ ", " ++ printHandle b
  | .subabs d a b => "SUBABS " ++ printHandle d ++ ", " ++ printHandle a ++ ", " ++ printHandle b
  | .incabs d => "INCABS " ++ printHandle d
  | .cmp a b => "CMP " ++ printHandle a ++ ", " ++ printHandle b
  | .cmpabs a b => "CMPABS " ++ printHandle a ++ ", " ++ printHandle b
  | .qmsb a => "QMSB " ++ printHandle a
  | .qneg a => "QNEG " ++ printHandle a
  | .qcap a => "QCAP " ++ printHandle a
  | .qword a ext => "QWORD " ++ printHandle a ++ ", #" ++ toString (extUnsigned ext)
  | .qstate a => "QSTATE " ++ printHandle a
  | .qfree => "QFREE"

end Sys2Proof
end

