-- ==== Sys2Proof/Machine/Bus.lean ====
section
/-!
DEFINITION. A byte-addressed bus adapter in front of the block (20_memory.md R52; 92_eei_decisions.md D30). It is not part of the core: the core
transfers whole words and has no byte order. BUS_BYTE_ORDER is a parameter of the adapter, and none where there is no adapter (00_scope.md R7).
-/

namespace Sys2Proof.Machine

/-- The bytes of a word in the order of their bus addresses, lowest first. -/
def busBytes (o : ByteOrder) (w : Word) : List Byte :=
  match o with
  | .little => [w.extractLsb' 0 8, w.extractLsb' 8 8, w.extractLsb' 16 8, w.extractLsb' 24 8]
  | .big => [w.extractLsb' 24 8, w.extractLsb' 16 8, w.extractLsb' 8 8, w.extractLsb' 0 8]

/-- The word whose bytes stand at four rising bus addresses. -/
def busWord (o : ByteOrder) (b0 b1 b2 b3 : Byte) : Word :=
  match o with
  | .little => (b3 ++ b2 ++ b1 ++ b0).cast rfl
  | .big => (b0 ++ b1 ++ b2 ++ b3).cast rfl

/-- The command and extension words a byte sequence brings, every transfer one whole word (20_memory.md R53). That the words follow one another, and that
bytes at the end that do not fill a word bring none, is the model's choice (DESIGN CHOICE, log entry 14). -/
def busWords (o : ByteOrder) : List Byte → List Word
  | b0 :: b1 :: b2 :: b3 :: rest => busWord o b0 b1 b2 b3 :: busWords o rest
  | [_, _, _] => []
  | [_, _] => []
  | [_] => []
  | [] => []

/-- The words that bytes on the bus bring to the block, in the byte order of the adapter it was built with; none without an adapter. -/
def State.busCommands (s : State) (bytes : List Byte) : Option (List Word) :=
  s.cfg.busByteOrder.map fun o => busWords o bytes

/-- The response as bytes on the bus: those of STATUS and those of RESULT, each word in the adapter's byte order (20_memory.md R52); none without an
adapter. That STATUS's bytes stand before RESULT's is the model's choice (DESIGN CHOICE, log entry 14): 70_reset_and_hazards.md R257 names the two
words without an order and 20_memory.md R55 leaves their addresses to the platform. -/
def State.busResponse (s : State) : Option (List Byte) :=
  s.cfg.busByteOrder.map fun o => busBytes o s.status ++ busBytes o s.result

end Sys2Proof.Machine
end

