-- ==== Sys2Proof/Tests/Slice0.lean ====
section
/-!
SUPPORT. The model's own tests: the well-formedness smoke tests, words written out from the encoding tables, single steps whose results are those
of 95_test_vectors.md (each test names its row), and, for every statement with hypotheses, witnesses that meet them.
-/

namespace Sys2Proof.Tests

open Machine

/-! ## Helpers -/

/-- The configuration TC2 of 95_test_vectors.md. -/
def tc2 : Config :=
  { nreg := 16, quantum := 1, inlineWords := 1, maxWords := 134217727, poolWords := 2, grant := .always, busByteOrder := none }

/-- A handle that holds `v` in a buffer of `cap` words. -/
def holds (k : Kind) (cap : Nat) (v : Int) : Handle :=
  { kind := k, cap := cap, mag := v.natAbs, msb := BitVec.ofNat 32 (bitlen v.natAbs), neg := decide (v < 0), indet := false, inlineBuf := 0 }

/-- A handle `x = v [I 4]`. -/
def i4 (v : Int) : Handle := holds .inlined 4 v

/-- A handle `x = v [I 1]`, of TC2. -/
def i1 (v : Int) : Handle := holds .inlined 1 v

/-- A handle `x = ? [I 4] indet`, with the draw `v`. -/
def q4 (v : Int) : Handle := { i4 v with indet := true }

/-- The state after reset with the listed handles in place and the words of their heap buffers taken from FREE. -/
def st (c : Config) (hs : List (Nat × Handle)) : State :=
  let file := hs.foldl (fun f p => f.set p.1 p.2) (List.replicate c.nreg Handle.reset)
  { State.resetWith c with handles := file, free := BitVec.ofNat 32 (c.poolWords - heapTotal file) }

/-- The state a command leads to. -/
def after (i : Instr) (s : State) : State :=
  match exec i s with
  | .next t => t
  | .fault _ => s
  | .refused _ => s

/-- The state a step leads to. -/
def next (s : State) : State :=
  match step s with
  | .next t => t
  | .fault _ => s
  | .refused _ => s

/-- STATUS, RESULT, and the value, kind and capacity of handle `i` after a command. -/
def shows (i : Instr) (s : State) (d : Index) : Word × Word × Int × Kind × Nat :=
  ((after i s).status, (after i s).result, ((after i s).handle d).val, ((after i s).handle d).kind, ((after i s).handle d).cap)

/-- The host's program `ws`, to be run by the state `s`. -/
def loaded (s : State) (ws : List Word) : State := { s with program := ws }

/-- The host presents to `s`, whose parameters are legal, the illegal command word `w`, with its extension word where it has one. -/
abbrev presentsIllegal (s : State) (w : Word) : Prop :=
  s.cfg.Legal ∧ s.resetRequest = false ∧ s.commandWord? = some w ∧ (∀ r ∈ opcodeTable, r.matchesWord w = false) ∧
  (commandLength w = 2 → s.program[s.pc + 1]? ≠ none)

/-- The handles most tests run on, under TC1. -/
def s1 : State :=
  st Config.default [(0, i4 0), (1, i4 5), (2, i4 (-7)), (3, q4 9), (4, i4 (2 ^ 128 - 1)), (6, holds .heap 8 (2 ^ 128)), (7, i4 99)]

/-- The handles the tests of exhaustion run on, under TC2 (95_test_vectors.md G11). -/
def s2 : State :=
  st tc2 [(1, i1 (-2147483648)), (2, holds .heap 2 (-4294967296)), (3, i1 0), (5, i1 4294967295), (6, { i1 0 with indet := true })]

/-! ## Well-formed instructions -/

theorem test_wf_init : Instr.wf Config.default (.init 15) = true ∧ Instr.wf Config.default (.init 16) = false := by decide
theorem test_wf_destroy : Instr.wf Config.default (.destroy 15) = true ∧ Instr.wf Config.default (.destroy 16) = false := by decide
theorem test_wf_grow : Instr.wf Config.default (.grow 15 0) = true ∧ Instr.wf Config.default (.grow 16 0) = false := by decide
theorem test_wf_zero : Instr.wf Config.default (.zero 15) = true ∧ Instr.wf Config.default (.zero 255) = false := by decide
theorem test_wf_seti : Instr.wf Config.default (.seti 15 0) = true ∧ Instr.wf Config.default (.seti 16 0) = false := by decide
theorem test_wf_copy : Instr.wf Config.default (.copy 15 15) = true ∧ Instr.wf Config.default (.copy 16 0) = false ∧
    Instr.wf Config.default (.copy 0 16) = false := by decide
theorem test_wf_add : Instr.wf Config.default (.add 0 1 15) = true ∧ Instr.wf Config.default (.add 16 0 0) = false ∧
    Instr.wf Config.default (.add 0 16 0) = false ∧ Instr.wf Config.default (.add 0 0 16) = false := by decide
theorem test_wf_sub : Instr.wf Config.default (.sub 0 0 16) = false := by decide
theorem test_wf_addabs : Instr.wf Config.default (.addabs 0 16 0) = false := by decide
theorem test_wf_subabs : Instr.wf Config.default (.subabs 16 0 0) = false := by decide
theorem test_wf_incabs : Instr.wf Config.default (.incabs 16) = false := by decide
theorem test_wf_cmp : Instr.wf Config.default (.cmp 15 15) = true ∧ Instr.wf Config.default (.cmp 16 0) = false ∧
    Instr.wf Config.default (.cmp 0 16) = false := by decide
theorem test_wf_cmpabs : Instr.wf Config.default (.cmpabs 0 16) = false := by decide
theorem test_wf_queries : Instr.wf Config.default (.qmsb 16) = false ∧ Instr.wf Config.default (.qneg 16) = false ∧
    Instr.wf Config.default (.qcap 16) = false ∧ Instr.wf Config.default (.qword 16 0) = false ∧
    Instr.wf Config.default (.qstate 16) = false ∧ Instr.wf Config.default .qfree = true := by decide

/-! ## Words written out from the encoding tables (30_encoding.md R81, R83, R86, R93; 95_test_vectors.md E, L, N, K, Q) -/

theorem test_word_init : decode [0x01010000] = .ok (.init 1, []) := by decide
theorem test_word_destroy : decode [0x02010000] = .ok (.destroy 1, []) := by decide
theorem test_word_grow : decode [0x03010000, 0x00000081, 7] = .ok (.grow 1 129, [7]) := by decide
theorem test_word_zero : decode [0x04020000] = .ok (.zero 2, []) := by decide
theorem test_word_seti : decode [0x05010000, 0xFFFFFFF9] = .ok (.seti 1 (enc32 (-7)), []) := by decide
theorem test_word_copy : decode [0x06020100] = .ok (.copy 2 1, []) := by decide
theorem test_word_add : decode [0x10030102] = .ok (.add 3 1 2, []) := by decide
theorem test_word_sub : decode [0x11020102] = .ok (.sub 2 1 2, []) := by decide
theorem test_word_addabs : decode [0x12010100] = .ok (.addabs 1 1 0, []) := by decide
theorem test_word_subabs : decode [0x13030102] = .ok (.subabs 3 1 2, []) := by decide
theorem test_word_incabs : decode [0x14010000] = .ok (.incabs 1, []) := by decide
theorem test_word_cmp : decode [0x20000401] = .ok (.cmp 4 1, []) := by decide
theorem test_word_cmpabs : decode [0x21000102] = .ok (.cmpabs 1 2, []) := by decide
theorem test_word_qmsb : decode [0x30000300] = .ok (.qmsb 3, []) := by decide
theorem test_word_qneg : decode [0x31000300] = .ok (.qneg 3, []) := by decide
theorem test_word_qcap : decode [0x32000100] = .ok (.qcap 1, []) := by decide
theorem test_word_qword : decode [0x33000100, 0x00000001] = .ok (.qword 1 1, []) := by decide
theorem test_word_qstate : decode [0x34000100] = .ok (.qstate 1, []) := by decide
theorem test_word_qfree : decode [0x35000000] = .ok (.qfree, []) := by decide

/-- E3, E4, E5: reserved opcodes. -/
theorem test_word_reserved : decode [0x00000000] = .error .reservedOpcode ∧ decode [0x15010000] = .error .reservedOpcode ∧
    decode [0xFF000000] = .error .reservedOpcode := by decide

/-- E6 to E10: a reserved field that is not zero. -/
theorem test_word_reservedField : decode [0x01010001] = .error .reservedField ∧ decode [0x20010102] = .error .reservedField ∧
    decode [0x340000FF] = .error .reservedField ∧ decode [0x35000001] = .error .reservedField ∧
    decode [0x03010100, 0x00000081] = .error .reservedField := by decide

theorem test_word_short : decode [] = .error .noWord ∧ decode [0x05010000] = .error .truncated := by decide

/-- The numbering of spec/opcode_table.json: the extension word's bits count on from bit 32. -/
theorem test_tableWord : decodeTableWord 64 0xFFFFFFF905010000 = some (.seti 1 0xFFFFFFF9) ∧
    decodeTableWord 32 0x10030102 = some (.add 3 1 2) ∧ decodeTableWord 32 0x03010000 = some (.grow 1 0) := by decide

theorem test_fetchWord : next (State.reset.withFetchWord 32 0x01010000) =
    { State.reset.withFetchWord 32 0x01010000 with
      handles := State.reset.handles.set 1 (i4 0), port := .responding, pc := 1 } := by decide

/-! ## Single steps, with the results of 95_test_vectors.md -/

/-- L1. -/
theorem test_init : shows (.init 5) s1 5 = (0x000, 0, 0, .inlined, 4) := by decide

/-- L2. -/
theorem test_init_refused : shows (.init 1) s1 1 = (0x102, 0, 5, .inlined, 4) := by decide

/-- L4: FREE is full again. -/
theorem test_destroy : shows (.destroy 6) s1 6 = (0x000, 0, 0, .uninit, 0) ∧ (after (.destroy 6) s1).free = 1048576 := by decide

/-- L6, and the scrub of 40_lifecycle.md R105. -/
theorem test_destroy_indet : (after (.destroy 3) s1).handle 3 = Handle.reset := by decide

/-- L9. -/
theorem test_grow : shows (.grow 1 129) s1 1 = (0x000, 0, 5, .heap, 8) ∧ (after (.grow 1 129) s1).free = 1048560 := by decide

/-- L13: the initialization stands. -/
theorem test_grow_uninit_fails : shows (.grow 5 4294967295) s1 5 = (0x101, 0, 0, .inlined, 4) := by decide

/-- L15. -/
theorem test_zero : shows (.zero 6) s1 6 = (0x000, 0, 0, .heap, 8) := by decide

/-- L17. -/
theorem test_zero_indet : (after (.zero 3) s1).handle 3 = i4 0 := by decide

/-- L20. -/
theorem test_seti_least : (after (.seti 1 0x80000000) s1).handle 1 = i4 (-2147483648) := by decide

/-- L23. -/
theorem test_seti_uninit : shows (.seti 5 3) s1 5 = (0x102, 0, 0, .uninit, 0) := by decide

/-- L29. -/
theorem test_copy_grows : shows (.copy 1 6) s1 1 = (0x000, 0, 2 ^ 128, .heap, 8) := by decide

/-- L27. -/
theorem test_copy_self_indet : shows (.copy 3 3) s1 3 = (0x102, 0, 9, .inlined, 4) := by decide

/-- G1. -/
theorem test_add_carry : shows (.add 0 4 1) s1 0 = (0x000, 0, 2 ^ 128 + 4, .heap, 8) := by decide

/-- G11: whatever is drawn, kind and capacity stay and the handle is indeterminate. -/
theorem test_add_weak : (after (.add 3 2 1) s2).status = 0x101 ∧ ((after (.add 3 2 1) s2).handle 3).indet = true ∧
    ((after (.add 3 2 1) s2).handle 3).kind = .inlined ∧ (after (.add 3 2 1) s2).free = 0 := by decide

/-- The signs of row D2, and G4. -/
theorem test_sub_signs : shows (.sub 0 2 1) s1 0 = (0x000, 0, -12, .inlined, 4) ∧ shows (.sub 2 2 2) s1 2 = (0x000, 0, 0, .inlined, 4) := by
  decide

/-- A zero minuend, as in row A7: the sign of a zero is flipped too, and the result is the other operand negated. -/
theorem test_sub_from_zero : shows (.sub 7 0 1) s1 7 = (0x000, 0, -5, .inlined, 4) := by decide

/-- The signs of row D2. -/
theorem test_addabs : shows (.addabs 0 2 1) s1 0 = (0x000, 0, 12, .inlined, 4) := by decide

/-- G5: a source that is also the destination. -/
theorem test_addabs_alias : shows (.addabs 2 2 2) s1 2 = (0x000, 0, 14, .inlined, 4) := by decide

/-- The signs of row D3, the larger magnitude second: the smaller is taken from the larger. -/
theorem test_subabs : shows (.subabs 0 1 2) s1 0 = (0x000, 0, 2, .inlined, 4) := by decide

/-- G12: no bit more than the longer operand is asked for. -/
theorem test_subabs_no_growth : shows (.subabs 3 5 1) s2 3 = (0x000, 0, 2147483647, .inlined, 1) := by decide

/-- N5: the carry runs through four words of ones. -/
theorem test_incabs_carry : shows (.incabs 4) s1 4 = (0x000, 0, 2 ^ 128, .heap, 8) ∧ ((after (.incabs 4) s1).handle 4).msb = 129 := by decide

/-- N3 and N9. -/
theorem test_incabs_sign : shows (.incabs 2) s1 2 = (0x000, 0, -8, .inlined, 4) ∧ shows (.incabs 5) s2 5 = (0x101, 0, 4294967295, .inlined, 1) := by
  decide

/-- K1 and K4. -/
theorem test_cmp : (after (.cmp 2 1) s1).result = 0xFFFFFFFF ∧ (after (.cmp 1 2) s2).result = 1 := by decide

/-- K12. -/
theorem test_cmp_uninit : (after (.cmp 1 5) s1).status = 0x102 ∧ (after (.cmp 1 5) s1).result = 0 := by decide

/-- K1 and K4. -/
theorem test_cmpabs : (after (.cmpabs 2 1) s1).result = 1 ∧ (after (.cmpabs 1 2) s2).result = 0xFFFFFFFF := by decide

/-- K13. -/
theorem test_cmpabs_indet : (after (.cmpabs 1 3) s1).status = 0x102 := by decide

/-- Q3, with a value of 129 bits. -/
theorem test_qmsb : (after (.qmsb 6) s1).result = 129 := by decide

/-- Q4 and Q5. -/
theorem test_qneg : (after (.qneg 2) s1).result = 1 ∧ (after (.qneg 0) s1).result = 0 := by decide

/-- Q6 and Q7. -/
theorem test_qcap : (after (.qcap 1) s1).result = 4 ∧ (after (.qcap 6) s1).result = 8 := by decide

/-- Q8: the words count from the least significant one. -/
theorem test_qword : (after (.qword 6 4) s1).result = 1 ∧ (after (.qword 6 3) s1).result = 0 := by decide

/-- Q11. -/
theorem test_qword_cap : (after (.qword 1 4) s1).status = 0x102 ∧ (after (.qword 1 3) s1).status = 0 := by decide

/-- Q15 and Q16. -/
theorem test_qstate : (after (.qstate 6) s1).result = 2 ∧ (after (.qstate 3) s1).result = 5 := by decide

/-- Q18. -/
theorem test_qfree : (after .qfree State.reset).result = 0x00100000 ∧ (after .qfree State.reset).status = 0 := by decide

/-! ## Reset, STATUS and the host (95_test_vectors.md section 2.6) -/

/-- X2: STICKY stays after a failure. -/
theorem test_sticky : (after .qfree (after (.qmsb 0) State.reset)).status = 0x100 := by decide

/-- X5. -/
theorem test_reset_while_waiting : next { loaded s1 [0x05010000] with port := .awaitExt 0x05010000, resetRequest := true } =
    { State.reset with program := [0x05010000] } := by decide

theorem test_reset_memory : Memory.wf State.reset := by decide

/-- E10: both words of an illegal GROW are consumed. -/
theorem test_illegal_length : (next (loaded s1 [0x03010100, 0x00000081])).pc = 2 ∧ (next (loaded s1 [0x03010100, 0x00000081])).status = 0x103 := by
  decide

/-- The end of a host program (70_reset_and_hazards.md R252), and a program that ends inside a two-word command, which has not ended. -/
theorem test_ended : (next (loaded s1 [0x35000000])).ended = true ∧ (next (loaded s1 [0x03010000])).ended = false ∧
    (next (loaded s1 [0x35000000])).endState = (s1.handles, 1048568, 0, 1048568) := by decide

/-! ## The bus adapter and the assembler (20_memory.md R52, 30_encoding.md R91, R92, R93) -/

theorem test_bus_little : busWords .little [0x02, 0x01, 0x03, 0x10, 0xFF] = [0x10030102] ∧
    busBytes .little 0x10030102 = [0x02, 0x01, 0x03, 0x10] := by decide

theorem test_bus_big : busWords .big [0x10, 0x03, 0x01, 0x02] = [0x10030102] ∧
    busBytes .big 0x10030102 = [0x10, 0x03, 0x01, 0x02] := by decide

theorem test_bus_state : ((after (.qmsb 5) s1).withBus (some .big)).busResponse = some [0, 0, 1, 2, 0, 0, 0, 0] ∧ s1.busResponse = none ∧
    (s1.withBus (some .little)).busCommands [0, 0, 0, 0x35] = some [0x35000000] := by decide

theorem test_asm : assembleLine "SETI x1, #-7".toList = some (.seti 1 0xFFFFFFF9) ∧
    assembleLine "QWORD x3, #0".toList = some (.qword 3 0) ∧ assembleLine "DBL x1, x1".toList = some (.add 1 1 1) := by decide

theorem test_asm_refuses : assembleLine "SETI x1, #2147483648".toList = none ∧ assembleLine "INIT x256".toList = none ∧
    assembleLine "INIT x1, x2".toList = none := by decide

/-! ## Witnesses: for each statement with hypotheses, a state and operands that meet them -/

theorem witness_legal : Config.default.Legal ∧ tc2.Legal := by decide

theorem witness_illegal : ¬ Config.Legal { Config.default with quantum := 3 } ∧ ¬ Config.Legal { Config.default with nreg := 257 } ∧
    ¬ Config.Legal { Config.default with maxWords := 134217728 } := by decide

/-- The states of these tests meet the invariant. -/
theorem witness_inv : s1.Inv ∧ s2.Inv ∧ State.reset.Inv :=
  ⟨by decide, by decide, by decide⟩

theorem witness_ResetAbandonsTheCommand :
    Config.Legal ({ s1 with port := .awaitExt 0x05010000, resetRequest := true } : State).cfg ∧
    ({ s1 with port := .awaitExt 0x05010000, resetRequest := true } : State).resetRequest = true := by decide

theorem witness_StepRunsTheDecodedCommand :
    (loaded s1 [0x03010000, 0x00000081, 0x35000000]).cfg.Legal ∧ (loaded s1 [0x03010000, 0x00000081, 0x35000000]).resetRequest = false ∧
    decode ((loaded s1 [0x03010000, 0x00000081, 0x35000000]).program.drop 0) = .ok (.grow 1 129, [0x35000000]) ∧
    (∀ w, (loaded s1 [0x03010000, 0x00000081, 0x35000000]).port ≠ .awaitExt w) :=
  ⟨by decide, by decide, by decide, fun _ h => by cases h⟩

theorem witness_StepRunsTheDecodedCommand_held : (loaded s1 [0x03010000, 0x00000081]).cfg.Legal ∧
    (loaded s1 [0x03010000, 0x00000081]).resetRequest = false ∧
    ({ loaded s1 [0x03010000, 0x00000081] with port := .awaitExt 0x03010000 } : State).port = .awaitExt 0x03010000 ∧ commandLength 0x03010000 = 2 ∧
    (loaded s1 [0x03010000, 0x00000081]).program[(0 : Nat) + 1]? = some 0x00000081 ∧
    decode [0x03010000, 0x00000081] = .ok (.grow 1 129, []) := by decide

theorem witness_TwoWordCommandWaits : (loaded s1 [0x33010000]).cfg.Legal ∧ (loaded s1 [0x33010000]).resetRequest = false ∧
    (loaded s1 [0x33010000]).commandWord? = some 0x33010000 ∧
    commandLength 0x33010000 = 2 ∧ (loaded s1 [0x33010000]).program[(0 : Nat) + 1]? = none := by decide

theorem witness_FinishedProgramLeavesTheBlockIdle : s1.cfg.Legal ∧ s1.resetRequest = false ∧ (∀ w, s1.port ≠ .awaitExt w) ∧
    s1.program.length ≤ s1.pc :=
  ⟨by decide, by decide, (fun _ h => by cases h), by decide⟩

theorem witness_PointerMovesByTheCommandLength :
    step (loaded s1 [0x05010000, 0x00000001]) = .next (next (loaded s1 [0x05010000, 0x00000001])) ∧
    (next (loaded s1 [0x05010000, 0x00000001])).pc = 2 ∧ step s1 = .next (next s1) ∧ (next s1).pc = 0 :=
  ⟨rfl, by decide, rfl, by decide⟩

theorem witness_IllegalCommandWordsOnlyReport : s1.cfg.Legal ∧ s1.resetRequest = false ∧
    (∀ r ∈ opcodeTable, r.matchesWord 0x15010000 = false) ∧ (∀ r ∈ opcodeTable, r.matchesWord 0x20010102 = false) ∧
    (∀ r ∈ opcodeTable, r.matchesWord 0x03010100 = false) ∧ commandLength 0x03010100 = 2 ∧
    (loaded s1 [0x03010100, 0x00000081]).commandWord? = some 0x03010100 ∧
    (loaded s1 [0x03010100, 0x00000081]).program[(0 : Nat) + 1]? ≠ none := by decide

/-- Every range of 30_encoding.md R88 at both its ends, and the defined opcodes beside them. -/
theorem witness_ReservedOpcodesAreIllegal :
    reservedOp 0x00 = true ∧ reservedOp 0x07 = true ∧ reservedOp 0x0F = true ∧ reservedOp 0x15 = true ∧ reservedOp 0x1F = true ∧
    reservedOp 0x22 = true ∧ reservedOp 0x2F = true ∧ reservedOp 0x36 = true ∧ reservedOp 0xFF = true ∧
    reservedOp 0x01 = false ∧ reservedOp 0x06 = false ∧ reservedOp 0x10 = false ∧ reservedOp 0x14 = false ∧ reservedOp 0x20 = false ∧
    reservedOp 0x21 = false ∧ reservedOp 0x30 = false ∧ reservedOp 0x35 = false ∧
    s1.cfg.Legal ∧ s1.resetRequest = false ∧ (loaded s1 [0x15010000]).commandWord? = some 0x15010000 := by decide

theorem witness_EncodeOfDecode : decode [0x33000300, 0x00000000, 0x35000000] = .ok (.qword 3 0, [0x35000000]) := by decide

theorem witness_ExactlyOneTableRowMatches : TableRow.matchesWord ⟨"QFREE", 0x35000000, 0xFFFFFFFF, 1⟩ 0x35000000 = true ∧
    decodeCommand 0x35000001 0 = .error .reservedField := by decide

theorem witness_LengthIsDecidedByTheOpcode : encode (.qword 3 0) = [0x33000300, 0x00000000] ∧ commandLength 0xFF000000 = 1 := by decide

/-- A step that allocates, from a state that meets the invariant. -/
theorem witness_StepKeepsTheInvariant : (loaded s1 [0x03010000, 0x00000081]).Inv ∧
    step (loaded s1 [0x03010000, 0x00000081]) = .next (next (loaded s1 [0x03010000, 0x00000081])) ∧
    ((next (loaded s1 [0x03010000, 0x00000081])).handle 1).kind = .heap :=
  ⟨by decide, rfl, by decide⟩

/-- The capacity changes within the lifetime, so the last clause is met. -/
theorem witness_LifetimeKeepsItsStorage : (loaded s1 [0x03010000, 0x00000081]).Inv ∧
    step (loaded s1 [0x03010000, 0x00000081]) = .next (next (loaded s1 [0x03010000, 0x00000081])) ∧
    (loaded s1 [0x03010000, 0x00000081]).Names 1 ∧
    ((loaded s1 [0x03010000, 0x00000081]).handle 1).kind ≠ .uninit ∧
    ((next (loaded s1 [0x03010000, 0x00000081])).handle 1).cap ≠ ((loaded s1 [0x03010000, 0x00000081]).handle 1).cap :=
  ⟨by decide, rfl, by decide⟩

theorem witness_CommandTouchesOnlyItsDestination : exec (.add 0 1 2) s1 = .next (after (.add 0 1 2) s1) ∧
    Instr.dest (.add 0 1 2) ≠ some 1 ∧ Instr.dest (.cmp 1 2) = none :=
  ⟨rfl, by decide, by decide⟩

theorem witness_FreeChangesOnlyByGrowthAndDestroy : exec (.seti 1 9) s1 = .next (after (.seti 1 9) s1) ∧ growing (.seti 1 9) = false ∧
    (∀ d, (Instr.seti 1 9) ≠ .destroy d) :=
  ⟨rfl, rfl, fun _ h => by cases h⟩

/-- The sticky bit set, kept by a step and cleared by a reset, and illegal words of one word and of two. -/
theorem witness_StickyRecordsEveryFailure :
    exec (.qmsb 5) s1 = .next (after (.qmsb 5) s1) ∧ statusSticky (after (.qmsb 5) s1).status = true ∧
    step (after (.qmsb 5) s1) = .next (next (after (.qmsb 5) s1)) ∧ (after (.qmsb 5) s1).resetRequest = false ∧
    step { after (.qmsb 5) s1 with resetRequest := true } = .next (next { after (.qmsb 5) s1 with resetRequest := true }) ∧
    presentsIllegal (loaded s1 [0x15010000]) 0x15010000 ∧ presentsIllegal (loaded s1 [0x03010100, 0x00000081]) 0x03010100 :=
  ⟨rfl, by decide, rfl, by decide, rfl, by decide, by decide⟩

theorem witness_ResultIsZeroUnlessReturned : exec (.zero 1) s1 = .next (after (.zero 1) s1) ∧ Instr.returnsResult (.zero 1) = false ∧
    exec (.qmsb 5) s1 = .next (after (.qmsb 5) s1) ∧ ¬ EndedWith (after (.qmsb 5) s1) .ok ∧
    presentsIllegal (loaded (after (.qcap 1) s1) [0x20010102]) 0x20010102 ∧ (after (.qcap 1) s1).result ≠ 0 :=
  ⟨rfl, rfl, rfl, by decide, by decide, by decide⟩

theorem witness_CommandsEndWithTheirOwnCodes : exec (.destroy 16) s1 = .next (after (.destroy 16) s1) ∧
    EndedWith (after (.destroy 16) s1) .invalidArgument ∧ EndedWith (after (.qstate 16) s1) .invalidArgument :=
  ⟨rfl, by decide, by decide⟩

/-- Each failure of the table: INVALID_ARGUMENT, and OUT_OF_MEMORY of an initialized and an UNINIT GROW, of COPY, INCABS and ADD. -/
theorem witness_FailuresLeaveWhatTheTableSays :
    s2.Inv ∧ EndedWith (after (.cmp 4 1) s2) .invalidArgument ∧ EndedWith (after (.grow 1 33) s2) .outOfMemory ∧
    (s2.handle 1).kind ≠ .uninit ∧ EndedWith (after (.grow 4 33) s2) .outOfMemory ∧ (s2.handle 4).kind = .uninit ∧
    EndedWith (after (.copy 3 2) s2) .outOfMemory ∧ EndedWith (after (.incabs 5) s2) .outOfMemory ∧
    EndedWith (after (.add 3 2 1) s2) .outOfMemory := by decide

/-- An UNINIT source, an indeterminate source and an UNINIT destination. -/
theorem witness_StateChecksRefuse :
    Instr.wf s1.cfg (.add 5 3 5) = true ∧ (∃ h ∈ reads (.add 5 3 5), (s1.handle h).kind = .uninit) ∧
    (∃ h ∈ reads (.add 5 3 5), (s1.handle h).indet = true) ∧ (∃ h ∈ overwrites (.add 5 3 5), (s1.handle h).kind = .uninit) := by decide

theorem witness_IndexCheckRefuses : (∃ h ∈ Instr.handles (.add 3 1 16), s1.cfg.nreg ≤ h.toNat) ∧
    (∃ h ∈ Instr.handles (.qstate 255), s1.cfg.nreg ≤ h.toNat) := by decide

/-- Two states that differ in what an inline buffer still holds, and in nothing else. -/
theorem witness_InlineLeftoversAreUnobservable :
    (s1.setHandle 6 { s1.handle 6 with inlineBuf := 77 }).forgetInline = s1.forgetInline ∧
    s1.setHandle 6 { s1.handle 6 with inlineBuf := 77 } ≠ s1 ∧ step s1 = .next (next s1) :=
  ⟨by decide, by decide, rfl⟩

theorem witness_BusByteOrderChangesNoStep : step (loaded s1 [0x14010000]) = .next (next (loaded s1 [0x14010000])) := rfl

/-- A growth that allocates: at one bit over the capacity, and at the largest request the words that are free can meet. -/
theorem witness_GrowthInstallsARoundedBuffer :
    s1.Inv ∧ s1.Names 1 ∧ s1.initialized 1 = true ∧ (s1.handle 1).cap < wordsFor 129 ∧ s1.CanGrow 1 129 ∧
    growWords s1.cfg 33554176 = s1.free.toNat ∧ s1.CanGrow 1 33554176 :=
  ⟨by decide, by decide, by decide, by decide, Or.inr (by decide), by decide, Or.inr (by decide)⟩

/-- A growth that fails: one bit more than the words that are free can meet, and the largest request a command can make. -/
theorem witness_FailedGrowthChangesNothing : s1.grow 1 33554177 = .oom s1 ∧ s1.grow 1 4294967295 = .oom s1 := by decide

theorem witness_CoveredGrowthIsImmediate : ceilDiv 128 32 ≤ (s1.handle 1).cap ∧ ¬ ceilDiv 129 32 ≤ (s1.handle 1).cap := by decide

theorem witness_RepeatedGrowthChangesNothing : s1.Inv ∧ s1.Names 1 ∧ (∃ t, s1.grow 1 129 = .ok t) ∧ s1.grow 1 128 = .ok s1 :=
  ⟨by decide, by decide, State.grow_ok_iff.2 (Or.inr (by decide)), by decide⟩

theorem witness_InitGivesTheCanonicalZero : s1.Inv ∧ s1.Names 5 ∧ (s1.handle 5).kind = .uninit ∧ (s1.handle 1).kind ≠ .uninit :=
  ⟨by decide, by decide⟩

theorem witness_DestroyReleasesTheStorage : s1.Inv ∧ s1.Names 6 ∧ (s1.handle 6).heapWords = 8 ∧ s1.Names 5 ∧ (s1.handle 5).kind = .uninit :=
  ⟨by decide, by decide⟩

theorem witness_GrowMakesRoomAndKeepsTheValue :
    s1.Inv ∧ s2.Inv ∧ s1.Names 1 ∧ s2.Names 1 ∧ (s1.handle 1).kind ≠ .uninit ∧ (s1.handle 1).indet = false ∧ s1.CanGrow 1 128 ∧ s1.CanGrow 1 129 ∧
    ¬ s2.CanGrow 1 33 ∧ (s2.handle 1).kind ≠ .uninit ∧ (s2.handle 1).indet = false ∧ (s1.handle 3).indet = true :=
  ⟨by decide, by decide, by decide, by decide, by decide, by decide, Or.inl (by decide), Or.inr (by decide), by unfold State.CanGrow; decide, by decide, by decide, by decide⟩

theorem witness_GrowInitializesFirst :
    s2.Inv ∧ s2.Names 4 ∧ (s2.handle 4).kind = .uninit ∧ (s2.setHandle 4 (Handle.fresh s2.cfg)).CanGrow 4 32 ∧
    ¬ (s2.setHandle 4 (Handle.fresh s2.cfg)).CanGrow 4 33 :=
  ⟨by decide, by decide, by decide, Or.inl (by decide), by unfold State.CanGrow; decide⟩

theorem witness_ZeroKeepsTheStorage : s1.Inv ∧ s1.Names 3 ∧ s1.initialized 3 = true ∧ (s1.handle 3).indet = true :=
  ⟨by decide, by decide⟩

theorem witness_SetiGivesTheSignedValue : s1.Inv ∧ s1.Names 1 ∧ s1.initialized 1 = true ∧ (0x80000000 : Word).toInt = -2147483648 :=
  ⟨by decide, by decide⟩

/-- COPY to a handle that has the room, and to one that gets it. -/
theorem witness_CopyGivesTheSameValue :
    s1.Inv ∧ s1.Ready 1 [2] ∧ s1.CanGrow 1 (s1.handle 2).msb.toNat ∧ (s1.handle 2).mag ≠ 0 ∧
    s1.Ready 1 [6] ∧ s1.CanGrow 1 (s1.handle 6).msb.toNat ∧ (s1.handle 1).cap < wordsFor (s1.handle 6).msb.toNat ∧
    EndedWith (after (.copy 1 6) s1) .ok ∧
    s2.Inv ∧ s2.Ready 3 [2] ∧ (s2.handle 2).mag ≠ 0 ∧ ¬ s2.CanGrow 3 (s2.handle 2).msb.toNat :=
  ⟨by decide, by unfold State.Ready; decide, Or.inl (by decide), by decide, by unfold State.Ready; decide, Or.inr (by decide), by decide, by decide,
    by decide, by unfold State.Ready; decide, by decide, by unfold State.CanGrow; decide⟩

theorem witness_CopyOfZeroAndOntoItself : s1.Inv ∧ s1.Ready 3 [0] ∧ (s1.handle 0).mag = 0 ∧ s1.readable 1 = true ∧ s1.readable 3 = false :=
  ⟨by decide, by unfold State.Ready; decide, by decide, by decide, by decide⟩

/-- A sum within the capacity, one that grows, and one that cannot. -/
theorem witness_AddGivesTheExactSum :
    s1.Inv ∧ s1.Ready 0 [1, 2] ∧ s1.CanGrow 0 (signedBits (s1.operand 1) (s1.operand 2)) ∧
    s1.Ready 0 [4, 1] ∧ s1.CanGrow 0 (signedBits (s1.operand 4) (s1.operand 1)) ∧ EndedWith (after (.add 0 4 1) s1) .ok ∧
    s2.Inv ∧ s2.Ready 3 [2, 1] ∧ ¬ s2.CanGrow 3 (signedBits (s2.operand 2) (s2.operand 1)) :=
  ⟨by decide, by unfold State.Ready; decide, Or.inl (by decide), by unfold State.Ready; decide, Or.inr (by decide), by decide,
    by decide, by unfold State.Ready; decide, by unfold State.CanGrow; decide⟩

theorem witness_SubGivesTheExactDifference :
    s1.Inv ∧ s1.Ready 0 [1, 2] ∧ s1.CanGrow 0 (signedBits (s1.operand 1) (s1.operand 2).flip) ∧ EndedWith (after (.sub 0 1 2) s1) .ok :=
  ⟨by decide, by unfold State.Ready; decide, Or.inl (by decide), by decide⟩

theorem witness_AddabsGivesTheSumOfMagnitudes :
    s1.Inv ∧ s1.Ready 0 [4, 2] ∧ s1.CanGrow 0 (max (s1.handle 4).msb.toNat (s1.handle 2).msb.toNat + 1) ∧ EndedWith (after (.addabs 0 4 2) s1) .ok :=
  ⟨by decide, by unfold State.Ready; decide, Or.inr (by decide), by decide⟩

theorem witness_SubabsGivesTheDifferenceOfMagnitudes :
    s1.Inv ∧ s1.Ready 0 [4, 2] ∧ s1.CanGrow 0 (max (s1.handle 4).msb.toNat (s1.handle 2).msb.toNat) ∧ EndedWith (after (.subabs 0 4 2) s1) .ok :=
  ⟨by decide, by unfold State.Ready; decide, Or.inl (by decide), by decide⟩

/-- A tie: the magnitudes of x1 and of x2 after x2 has been set to -5, and those of a handle and itself. -/
theorem witness_MagnitudeTieGivesTheCanonicalZero :
    (after (.seti 2 0xFFFFFFFB) s1).Inv ∧ ((after (.seti 2 0xFFFFFFFB) s1).handle 1).neg ≠ ((after (.seti 2 0xFFFFFFFB) s1).handle 2).neg ∧
    ((after (.seti 2 0xFFFFFFFB) s1).handle 1).mag = ((after (.seti 2 0xFFFFFFFB) s1).handle 2).mag ∧
    EndedWith (after (.add 0 1 2) (after (.seti 2 0xFFFFFFFB) s1)) .ok ∧ EndedWith (after (.sub 0 1 1) (after (.seti 2 0xFFFFFFFB) s1)) .ok ∧
    exec (.sub 0 1 1) (after (.seti 2 0xFFFFFFFB) s1) = .next (after (.sub 0 1 1) (after (.seti 2 0xFFFFFFFB) s1)) :=
  ⟨by decide, by decide, by decide, by decide, by decide, rfl⟩

/-- Each of the four commands, one bit over the capacity with an empty pool. -/
theorem witness_WeakFailureKeepsTheInvariants :
    s2.Inv ∧ s2.Ready 3 [2, 1] ∧ ¬ s2.CanGrow 3 (signedBits (s2.operand 2) (s2.operand 1)) ∧
    ¬ s2.CanGrow 3 (signedBits (s2.operand 2) (s2.operand 5).flip) ∧ ¬ s2.CanGrow 3 (addBits (s2.operand 5) (s2.operand 1)) ∧
    ¬ s2.CanGrow 3 (subBits (s2.operand 2) (s2.operand 1)) :=
  ⟨by decide, by unfold State.Ready; decide, by unfold State.CanGrow; decide, by unfold State.CanGrow; decide, by unfold State.CanGrow; decide,
    by unfold State.CanGrow; decide⟩

theorem witness_IncabsAddsOneToTheMagnitude : s1.Inv ∧ s1.Names 4 ∧ s1.readable 4 = true ∧ (s1.handle 4).mag ≠ 0 ∧
    s1.CanGrow 4 ((s1.handle 4).msb.toNat + 1) ∧ s1.CanGrow 2 ((s1.handle 2).msb.toNat + 1) ∧ EndedWith (after (.incabs 4) s1) .ok ∧
    s2.Inv ∧ s2.Names 5 ∧ s2.readable 5 = true ∧ (s2.handle 5).mag ≠ 0 ∧ ¬ s2.CanGrow 5 ((s2.handle 5).msb.toNat + 1) :=
  ⟨by decide, by decide, by decide, by decide, Or.inr (by decide), Or.inl (by decide), by decide,
    by decide, by decide, by decide, by decide, by unfold State.CanGrow; decide⟩

theorem witness_IncabsOfZeroAsksForNothing : s1.Inv ∧ s1.Names 0 ∧ s1.readable 0 = true ∧ (s1.handle 0).mag = 0 :=
  ⟨by decide, by decide⟩

/-- Both clauses, all significant bits one, and not. -/
theorem witness_IncabsRaisesTheBitLengthByAtMostOne :
    s1.Inv ∧ EndedWith (after (.incabs 4) s1) .ok ∧ (s1.handle 4).mag = 2 ^ (s1.handle 4).msb.toNat - 1 ∧
    EndedWith (after (.incabs 1) s1) .ok ∧ (s1.handle 1).mag ≠ 2 ^ (s1.handle 1).msb.toNat - 1 :=
  ⟨by decide, by decide⟩

theorem witness_RippleArithmeticIsExact : (4294967295 : Nat) < 2 ^ (32 * 1) ∧ (1 : Nat) < 2 ^ (32 * 1) ∧
    2 ^ (32 * 1) ≤ 4294967295 + 1 := by decide

theorem witness_CmpReturnsTheSignedOrder : s1.Inv ∧ s1.Names 1 ∧ s1.Names 2 ∧ s1.readable 1 = true ∧ s1.readable 2 = true ∧
    (s1.handle 2).val < (s1.handle 1).val :=
  ⟨by decide, by decide⟩

theorem witness_CmpabsReturnsTheMagnitudeOrder : s1.Inv ∧ s1.Names 1 ∧ s1.Names 2 ∧ s1.readable 1 = true ∧ s1.readable 2 = true ∧
    |(s1.handle 1).val| < |(s1.handle 2).val| :=
  ⟨by decide, by decide⟩

theorem witness_QmsbReturnsTheBitLength : s1.Inv ∧ s1.Names 6 ∧ s1.readable 6 = true :=
  ⟨by decide, by decide⟩

/-- A negative value and one that is not. -/
theorem witness_QnegAndQcapReturnSignAndCapacity : s1.Inv ∧ s1.Names 2 ∧ s1.readable 2 = true ∧ (s1.handle 2).val < 0 ∧
    s1.Names 0 ∧ s1.readable 0 = true ∧ ¬ (s1.handle 0).val < 0 :=
  ⟨by decide, by decide⟩

/-- The last word, a word above the value, and the first index that is refused. -/
theorem witness_QwordReturnsTheIndexedWord : s1.Inv ∧ s1.Names 1 ∧ s1.readable 1 = true ∧ (3 : Word).toNat < (s1.handle 1).cap ∧ (s1.handle 1).msb.toNat ≤ 32 * (1 : Word).toNat ∧
    (s1.handle 1).cap ≤ (4 : Word).toNat :=
  ⟨by decide, by decide⟩

theorem witness_QstateReturnsKindAndIndeterminate : s1.Names 15 ∧ ¬ s1.Names 16 := by decide

theorem witness_QueriesAreReadOnly : Instr.returnsResult .qfree = true ∧ exec .qfree s1 = .next (after .qfree s1) ∧
    exec .qfree (after .qfree s1) = .next (after .qfree (after .qfree s1)) :=
  ⟨rfl, rfl, rfl⟩

theorem witness_MagnitudeIsTheSumOfItsWords : (s1.handle 6).Wf s1.cfg ∧ (s1.handle 6).cap = 8 := by decide

end Sys2Proof.Tests
end

section
/-!
The host's transactions: the frame of every command, and from it what a step does to the program and the pointer, and which steps have a next state.
-/

namespace Sys2Proof.Machine

variable {s t u : State} {d : Option Index} {i : Instr}

/-! ## The frame of every command -/

theorem KeepsOutside.ite {p : Prop} [Decidable p] (ht : KeepsOutside s t d) (hu : KeepsOutside s u d) :
    KeepsOutside s (if p then t else u) d := by
  split
  · exact ht
  · exact hu

theorem KeepsOutside.refused (s : State) (d : Option Index) : KeepsOutside s (s.raise .invalidArgument) d :=
  (KeepsOutside.refl s d).raise _

theorem KeepsOutside.answered (s : State) (d : Option Index) (r : Word) : KeepsOutside s (s.finish .ok r) d :=
  (KeepsOutside.refl s d).finish _ _

theorem KeepsOutside.written (s : State) (i : Index) (h : Handle) : KeepsOutside s ((s.setHandle i h).finish .ok 0) (some i) :=
  ((KeepsOutside.refl s _).setHandle h).finish _ _

theorem KeepsOutside.signedSum (s : State) (i : Index) (x y : Operand) : KeepsOutside s (s.signedSum i x y) (some i) :=
  .ite (.growWrite s i _ _ _) (.growWrite s i _ _ _)

/-- Every command ends in a next state (00_scope.md R13, 60_exceptions.md R219) and leaves all but its destination's record, FREE, STATUS and RESULT as
they were. -/
theorem exec_frame (i : Instr) (s : State) : ∃ t, exec i s = .next t ∧ KeepsOutside s t i.dest := by
  cases i with
  | init d => exact ⟨_, rfl, .ite (.refused s _) (.ite (.refused s _) (.written s d _))⟩
  | destroy d => exact ⟨_, rfl, .ite (.refused s _) ((((KeepsOutside.refl s _).setHandle _).setFree _).finish _ _)⟩
  | grow d ext =>
    have hfresh : KeepsOutside s ((s.setHandle d (Handle.fresh s.cfg)).growCommand d (extUnsigned ext)) (some d) :=
      ((KeepsOutside.refl s _).setHandle _).trans (.growCommand _ d _)
    exact ⟨_, rfl, .ite (.refused s _) (.ite hfresh (.ite (.refused s _) (.growCommand s d _)))⟩
  | zero d => exact ⟨_, rfl, .ite (.refused s _) (.ite (.refused s _) (.written s d _))⟩
  | seti d ext => exact ⟨_, rfl, .ite (.refused s _) (.ite (.refused s _) (.written s d _))⟩
  | copy d a =>
    refine ⟨_, rfl, .ite (.refused s _) (.ite (.refused s _) (.ite (.answered s _ _) (.ite (.refused s _) (.ite (.written s d _) ?_))))⟩
    split
    · exact (KeepsOutside.grow (.inr ‹_›)).raise _
    · exact ((KeepsOutside.grow (.inl ‹_›)).setHandle _).finish _ _
  | add d a b => exact ⟨_, rfl, .ite (.refused s _) (.signedSum s d _ _)⟩
  | sub d a b => exact ⟨_, rfl, .ite (.refused s _) (.signedSum s d _ _)⟩
  | addabs d a b => exact ⟨_, rfl, .ite (.refused s _) (.growWrite s d _ _ _)⟩
  | subabs d a b => exact ⟨_, rfl, .ite (.refused s _) (.growWrite s d _ _ _)⟩
  | incabs d =>
    refine ⟨_, rfl, .ite (.refused s _) (.ite (.refused s _) (.ite (.written s d _) ?_))⟩
    split
    · exact (KeepsOutside.grow (.inr ‹_›)).raise _
    · exact ((KeepsOutside.grow (.inl ‹_›)).setHandle _).finish _ _
  | cmp a b => exact ⟨_, rfl, .ite (.refused s _) (.answered s _ _)⟩
  | cmpabs a b => exact ⟨_, rfl, .ite (.refused s _) (.answered s _ _)⟩
  | qmsb a => exact ⟨_, rfl, .ite (.refused s _) (.answered s _ _)⟩
  | qneg a => exact ⟨_, rfl, .ite (.refused s _) (.answered s _ _)⟩
  | qcap a => exact ⟨_, rfl, .ite (.refused s _) (.answered s _ _)⟩
  | qword a ext => exact ⟨_, rfl, .ite (.refused s _) (.ite (.refused s _) (.answered s _ _))⟩
  | qstate a => exact ⟨_, rfl, .ite (.refused s _) (.answered s _ _)⟩
  | qfree => exact ⟨_, rfl, .answered s _ _⟩

theorem exec_keepsOutside (h : exec i s = .next t) : KeepsOutside s t i.dest := by
  obtain ⟨u, hu, hk⟩ := exec_frame i s
  cases hu.symm.trans h
  exact hk

theorem exec_program (h : exec i s = .next t) : t.program = s.program := by
  obtain ⟨-, -, hprogram, -⟩ := exec_keepsOutside h
  exact hprogram

theorem exec_pc (h : exec i s = .next t) : t.pc = s.pc := by
  obtain ⟨-, -, -, hpc, -⟩ := exec_keepsOutside h
  exact hpc

/-! ## Which steps have a next state -/

theorem retire_exec_next (n : Nat) (i : Instr) (s : State) : ∃ t, retire n (exec i s) = .next t := by
  obtain ⟨u, hu, -⟩ := exec_frame i s
  exact ⟨u.respond n, by rw [hu]; rfl⟩

theorem step_of_not_legal (hl : ¬ s.cfg.Legal) : step s = .refused .illegalConfiguration := by
  simp [step, hl]

theorem step_of_reset (hl : s.cfg.Legal) (hr : s.resetRequest = true) : step s = .next s.takeReset := by
  simp [step, hl, hr]

/-- In a configuration of this hardware every step has a next state (60_exceptions.md R219). -/
theorem step_next_of_legal (hl : s.cfg.Legal) : ∃ t, step s = .next t := by
  cases hr : s.resetRequest with
  | true => exact ⟨_, step_of_reset hl hr⟩
  | false =>
    rw [step_of_fetch hl hr]
    cases s.fetch with
    | nothing => exact ⟨_, rfl⟩
    | incomplete w => exact ⟨_, rfl⟩
    | command ws =>
      cases hd : decode ws with
      | ok r => simpa only [hd] using retire_exec_next ws.length r.1 s
      | error e => exact ⟨s.illegal.respond ws.length, by simp only [hd]; rfl⟩

/-! ## The statements -/

/-- Settles O8, by the cases of a step: a reset, idling and waiting keep the pointer, and a command, decoded or rejected, keeps it until its response moves
it by the length of the words fetched, which is the command word's. -/
theorem pointerMovesByTheCommandLength : Obligations.PointerMovesByTheCommandLength := by
  intro s t h
  obtain ⟨-, ⟨-, rfl⟩ | ⟨-, ⟨-, rfl⟩ | ⟨w, -, rfl⟩ | ⟨ws, i, rest, u, hf, -, he, rfl⟩ | ⟨ws, e, hf, -, rfl⟩⟩⟩ := step_cases h
  · exact ⟨rfl, .inl rfl⟩
  · exact ⟨rfl, .inl rfl⟩
  · exact ⟨rfl, .inl rfl⟩
  · obtain ⟨w, hw, hlen, -⟩ := State.fetch_command hf
    exact ⟨(State.respond_program u _).trans (exec_program he), .inr ⟨w, hw, by rw [State.respond_pc, exec_pc he, hlen]⟩⟩
  · obtain ⟨w, hw, hlen, -⟩ := State.fetch_command hf
    exact ⟨rfl, .inr ⟨w, hw, by rw [← hlen]; rfl⟩⟩

/-- Settles O4: a legal configuration's step has a next state, so neither a refusal nor a fault, and an illegal one's is refused. -/
theorem onlyAnIllegalConfigurationIsRefused : Obligations.OnlyAnIllegalConfigurationIsRefused := by
  refine ⟨fun s => ?_, fun c hc => ?_⟩
  · by_cases hl : s.cfg.Legal
    · obtain ⟨t, ht⟩ := step_next_of_legal hl
      simp [ht, hl]
    · simp [step_of_not_legal hl, hl]
  · obtain ⟨-, -, ⟨-, hmultiple⟩, -⟩ := hc.constraints
    exact ⟨hmultiple, hc.inline_pos⟩

end Sys2Proof.Machine
end

section
/-!
What every step keeps: the invariant of the machine, and within a lifetime the storage of a handle. Each is proved once for every command and carried to
steps by the cases of a step.
-/

namespace Sys2Proof.Machine

variable {s t u : State} {i : Instr} {d : Index} {h h' : Handle} {cfg : Config} {n m : Nat} {neg : Bool} {x y : Operand}

/-- What holds of some next state of an execution holds of its next state. -/
theorem of_exec_next {P : State → Prop} (hex : ∃ u, exec i s = .next u ∧ P u) (h : exec i s = .next t) : P t := by
  obtain ⟨u, hu, hp⟩ := hex
  cases hu.symm.trans h
  exact hp

/-! ## The invariant of the machine: states, checks and growth -/

/-- A block with an empty handle file, a full FREE, an idle port and STATUS 0 meets the invariant (70_reset_and_hazards.md R240). -/
theorem State.Inv.of_reset (hl : s.cfg.Legal) (hhandles : s.handles = List.replicate s.cfg.nreg Handle.reset)
    (hfree : s.free = BitVec.ofNat 32 s.cfg.poolWords) (hstatus : s.status = 0) (hport : s.port = .idle) : s.Inv := by
  have hpool : (BitVec.ofNat 32 s.cfg.poolWords).toNat = s.cfg.poolWords :=
    Nat.mod_eq_of_lt (by have := hl.pool_le; omega)
  refine ⟨hl, by simp [hhandles], ?_, ?_, by rw [hstatus]; decide, by rw [hport]; rfl⟩
  · intro h hmem
    rw [hhandles] at hmem
    rw [List.eq_of_mem_replicate hmem]
    exact Handle.wf_reset
  · rw [hhandles, heapTotal_replicate_reset, hfree, hpool, Nat.add_zero]

theorem State.inv_takeReset (hl : s.cfg.Legal) : s.takeReset.Inv :=
  .of_reset hl rfl rfl rfl rfl

/-- Only a two-word command's word is ever held (70_reset_and_hazards.md R256). -/
theorem State.Inv.wait (hs : s.Inv) {w : Word} (hw : commandLength w = 2) : (s.wait w).Inv := by
  obtain ⟨hlegal, hlength, hmemory, hpool, hstatus, -⟩ := hs
  exact ⟨hlegal, hlength, hmemory, hpool, hstatus, by simp [Port.wf, hw]⟩

/-- A command whose check may refuse it keeps the invariant if it does so where the check passes. -/
theorem State.Inv.checked {p : Prop} [Decidable p] (hs : s.Inv) (hpass : ¬p → t.Inv) :
    State.Inv (if p then s.raise .invalidArgument else t) := by
  split
  · exact hs.raise _
  · exact hpass ‹_›

theorem State.Inv.ite {p : Prop} [Decidable p] (ht : p → t.Inv) (hu : ¬p → u.Inv) : State.Inv (if p then t else u) := by
  split
  · exact ht ‹_›
  · exact hu ‹_›

theorem State.names_of_check {is : List Index} (hb : ¬ s.badIndex is = true) : ∀ i ∈ is, s.Names i :=
  (State.badIndex_eq_false_iff is).1 (Bool.eq_false_of_not_eq_true hb)

theorem State.names_of_index (hb : ¬ s.badIndex [d] = true) : s.Names d :=
  State.names_of_check hb d (by simp)

theorem State.kind_of_check (hk : ¬ (!s.initialized d) = true) : (s.handle d).kind ≠ .uninit :=
  State.initialized_iff.1 (by simpa using hk)

/-- What the checks of a three-operand command pass on: an initialized destination and two exact snapshots (41_arithmetic.md R140). -/
theorem State.Inv.arithChecked {a b : Index} (hs : s.Inv)
    (hpass : s.Names d → (s.handle d).kind ≠ .uninit → (s.operand a).Exact → (s.operand b).Exact → t.Inv) :
    State.Inv (if s.arithRefused d a b then s.raise .invalidArgument else t) := by
  refine hs.checked fun hr => ?_
  obtain ⟨hd, hk, hab⟩ := State.arithRefused_eq_false_iff.1 (Bool.eq_false_of_not_eq_true hr)
  exact hpass hd (State.initialized_iff.1 hk) (hs.handle (hab a (by simp)).1).operand (hs.handle (hab b (by simp)).1).operand

/-- The initialization of an UNINIT handle keeps the invariant (40_lifecycle.md R100, R107). -/
theorem State.Inv.fresh (hs : s.Inv) (hd : s.Names d) (hk : (s.handle d).kind = .uninit) :
    (s.setHandle d (Handle.fresh s.cfg)).Inv :=
  hs.setHandle hd Handle.wf_fresh (by simp [Handle.heapWords, Handle.fresh, hk])

theorem State.Inv.cleared (hs : s.Inv) (hd : s.Names d) : (s.setHandle d (s.handle d).cleared).Inv :=
  hs.setHandle hd (hs.handle hd).cleared rfl

/-- The release of a handle keeps the invariant: FREE gains the words the handle held (10_state.md R32, 40_lifecycle.md R103). -/
theorem State.Inv.destroyed (hs : s.Inv) (hd : s.Names d) :
    ((s.setHandle d (s.handle d).destroyed).setFree (s.free + BitVec.ofNat 32 (s.handle d).heapWords)).Inv := by
  refine hs.setHandleFree hd (hs.handle hd).destroyed ?_
  have htotal := heapWords_le_total (hs.index hd)
  have hpool := hs.pool
  have hmax := hs.legal.pool_le
  have hnone : (s.handle d).destroyed.heapWords = 0 := rfl
  rw [hnone, BitVec.toNat_add, BitVec.toNat_ofNat]
  omega

/-- What a met growth leaves for the record write that follows it: the invariant, an initialized handle, and room for the bits asked for. -/
theorem State.Inv.grown (hs : s.Inv) (hd : s.Names d) (hk : (s.handle d).kind ≠ .uninit) (hg : s.grow d n = .ok t) :
    t.Inv ∧ t.Names d ∧ (t.handle d).kind ≠ .uninit ∧ n ≤ 32 * (t.handle d).cap := by
  obtain ⟨⟨hcfg, -⟩, -, -⟩ := State.grow_frame hg
  exact ⟨hs.grow hd hk hg, by rw [State.Names, hcfg]; exact hd, State.grow_kind (hs.index hd) hk hg,
    State.grow_room hs.legal.quantum_pos (hs.index hd) hg⟩

theorem State.Inv.grow_oom (hs : s.Inv) (hg : s.grow d n = .oom t) : t.Inv := by
  rcases (State.grow_oom hg).1 with rfl | rfl
  · exact hs
  · exact hs.nextTurn

/-- The signed sum of two exact snapshots keeps the invariant (41_arithmetic.md R143). -/
theorem State.Inv.signedSum (hs : s.Inv) (hd : s.Names d) (hk : (s.handle d).kind ≠ .uninit) (hx : x.Exact) (hy : y.Exact) :
    (s.signedSum d x y).Inv := by
  obtain ⟨m, neg, he, hm, -⟩ := s.signedSum_eq d hx hy
  rw [he]
  exact hs.growWrite hd hk hm neg

/-- The absolute value of a 32-bit signed number fits one word (40_lifecycle.md R116). -/
theorem extSigned_natAbs_lt (ext : Word) : (extSigned ext).natAbs < 2 ^ 32 := by
  have := ext.isLt
  unfold extSigned sint32
  split <;> omega

/-! ## Every command keeps the invariant -/

/-- GROW (40_lifecycle.md R106, R107). -/
theorem State.Inv.freshGrow (hs : s.Inv) (hd : s.Names d) (hk : (s.handle d).kind = .uninit) :
    ((s.setHandle d (Handle.fresh s.cfg)).growCommand d n).Inv := by
  refine (hs.fresh hd hk).growCommand hd ?_
  rw [State.handle_setHandle_same _ _ _ (hs.index hd)]
  simp [Handle.fresh]

/-- SETI: the absolute value fits the capacity of every initialized handle (40_lifecycle.md R116). -/
theorem State.Inv.setImmediate (hs : s.Inv) (hd : s.Names d) (hk : (s.handle d).kind ≠ .uninit) (ext : Word) :
    (s.writeResult d (extSigned ext).natAbs neg).Inv := by
  have hcap := (hs.handle hd).cap_pos hs.legal hk
  refine hs.writeResult hd hk (lt_of_lt_of_le (extSigned_natAbs_lt ext) ?_) neg
  exact Nat.pow_le_pow_right (by omega) (by omega)

/-- COPY after a met growth (40_lifecycle.md R118). -/
theorem State.Inv.copied {a : Index} (hs : s.Inv) (hd : s.Names d) (ha : s.Names a) (hk : (s.handle d).kind ≠ .uninit)
    (hg : s.grow d (s.handle a).msb.toNat = .ok t) : (t.setHandle d ((t.handle d).copied (s.handle a))).Inv := by
  obtain ⟨ht, hdt, hkt, hroom⟩ := hs.grown hd hk hg
  obtain ⟨⟨hcfg, -⟩, -, -⟩ := State.grow_frame hg
  have hsource : (s.handle a).Wf t.cfg := by
    rw [hcfg]
    exact hs.handle ha
  exact ht.setHandle hdt ((ht.handle hdt).copied hkt hsource hroom) rfl

/-- INCABS of zero: one word holds 1 (41_arithmetic.md R163). -/
theorem State.Inv.setOne (hs : s.Inv) (hd : s.Names d) (hk : (s.handle d).kind ≠ .uninit) :
    (s.setHandle d ((s.handle d).withMag 1)).Inv := by
  have hcap := (hs.handle hd).cap_pos hs.legal hk
  refine hs.setHandle hd ((hs.handle hd).withMag hs.legal hk ?_ one_pos) rfl
  exact Nat.one_lt_two_pow (by omega)

/-- INCABS after a met growth: one more than a magnitude of `msb` bits fits `msb + 1` bits (41_arithmetic.md R164, R165). -/
theorem State.Inv.incremented (hs : s.Inv) (hd : s.Names d) (hk : (s.handle d).kind ≠ .uninit)
    (hg : s.grow d ((s.handle d).msb.toNat + 1) = .ok t) :
    (t.setHandle d ((t.handle d).withMag (incMag (wordsFor (s.handle d).msb.toNat) (s.handle d).mag))).Inv := by
  obtain ⟨ht, hdt, hkt, hroom⟩ := hs.grown hd hk hg
  have hmag : (s.handle d).mag < 2 ^ (s.handle d).msb.toNat := by
    rw [(hs.handle hd).length]
    exact lt_two_pow_bitlen _
  have hwords : (s.handle d).mag < 2 ^ (32 * wordsFor (s.handle d).msb.toNat) :=
    lt_of_lt_of_le hmag (Nat.pow_le_pow_right (by omega) (le_wordsFor _))
  have hfit : (s.handle d).mag + 1 < 2 ^ (32 * (t.handle d).cap) :=
    calc (s.handle d).mag + 1 < 2 ^ ((s.handle d).msb.toNat + 1) := by rw [Nat.pow_succ]; omega
      _ ≤ 2 ^ (32 * (t.handle d).cap) := Nat.pow_le_pow_right (by omega) hroom
  rw [incMag_exact _ _ hwords]
  exact ht.setHandle hdt ((ht.handle hdt).withMag ht.legal hkt hfit (Nat.succ_pos _)) rfl

theorem exec_next_inv (hs : s.Inv) (i : Instr) : ∃ t, exec i s = .next t ∧ t.Inv := by
  cases i with
  | init d =>
    refine ⟨_, rfl, hs.checked fun hb => hs.checked fun hk => (hs.fresh (State.names_of_index hb) ?_).finish _ _⟩
    simpa [State.initialized] using hk
  | destroy d => exact ⟨_, rfl, hs.checked fun hb => (hs.destroyed (State.names_of_index hb)).finish _ _⟩
  | grow d ext =>
    refine ⟨_, rfl, hs.checked fun hb => .ite (fun hk => hs.freshGrow (State.names_of_index hb) ?_) fun hk => ?_⟩
    · simpa [State.initialized] using hk
    · exact hs.checked fun _ => hs.growCommand (State.names_of_index hb) (State.kind_of_check hk)
  | zero d => exact ⟨_, rfl, hs.checked fun hb => hs.checked fun _ => (hs.cleared (State.names_of_index hb)).finish _ _⟩
  | seti d ext =>
    exact ⟨_, rfl, hs.checked fun hb => hs.checked fun hk =>
      hs.setImmediate (State.names_of_index hb) (State.kind_of_check hk) ext⟩
  | copy d a =>
    refine ⟨_, rfl, hs.checked fun hb => hs.checked fun _ => .ite (fun _ => hs.finish _ _) fun _ => hs.checked fun hk => ?_⟩
    have hd : s.Names d := State.names_of_check hb d (by simp)
    have ha : s.Names a := State.names_of_check hb a (by simp)
    refine .ite (fun _ => (hs.cleared hd).finish _ _) fun _ => ?_
    split
    · exact (hs.grow_oom ‹_›).raise _
    · exact (hs.copied hd ha (State.kind_of_check hk) ‹_›).finish _ _
  | add d a b => exact ⟨_, rfl, hs.arithChecked fun hd hk ha hb => hs.signedSum hd hk ha hb⟩
  | sub d a b => exact ⟨_, rfl, hs.arithChecked fun hd hk ha hb => hs.signedSum hd hk ha hb⟩
  | addabs d a b =>
    refine ⟨_, rfl, hs.arithChecked fun hd hk ha hb => hs.growWrite hd hk ?_ _⟩
    rw [sumMag_exact ha hb]
    exact sum_lt_addBits ha hb
  | subabs d a b =>
    refine ⟨_, rfl, hs.arithChecked fun hd hk ha hb => hs.growWrite hd hk ?_ _⟩
    rw [diffMag_exact ha hb]
    exact diff_lt_subBits ha hb
  | incabs d =>
    refine ⟨_, rfl, hs.checked fun hb => hs.checked fun hr => ?_⟩
    have hd := State.names_of_index hb
    obtain ⟨hk, -⟩ : (s.handle d).kind ≠ .uninit ∧ _ := State.readable_iff.1 (by simpa using hr)
    refine .ite (fun _ => (hs.setOne hd hk).finish _ _) fun _ => ?_
    split
    · exact (hs.grow_oom ‹_›).raise _
    · exact (hs.incremented hd hk ‹_›).finish _ _
  | cmp a b => exact ⟨_, rfl, hs.checked fun _ => hs.finish _ _⟩
  | cmpabs a b => exact ⟨_, rfl, hs.checked fun _ => hs.finish _ _⟩
  | qmsb a => exact ⟨_, rfl, hs.checked fun _ => hs.finish _ _⟩
  | qneg a => exact ⟨_, rfl, hs.checked fun _ => hs.finish _ _⟩
  | qcap a => exact ⟨_, rfl, hs.checked fun _ => hs.finish _ _⟩
  | qword a ext => exact ⟨_, rfl, hs.checked fun _ => hs.checked fun _ => hs.finish _ _⟩
  | qstate a => exact ⟨_, rfl, hs.checked fun _ => hs.finish _ _⟩
  | qfree => exact ⟨_, rfl, hs.finish _ _⟩

theorem exec_inv (hs : s.Inv) (h : exec i s = .next t) : t.Inv :=
  of_exec_next (exec_next_inv hs i) h

/-! ## Storage within a lifetime -/

/-- A record that became `h'` has begun or ended a lifetime, or keeps its storage or moves to a larger heap buffer (10_state.md R26, R28, R29). -/
def Handle.Lasts (c : Config) (h h' : Handle) : Prop :=
  h.kind = .uninit ∨ h'.kind = .uninit ∨
  (h.cap ≤ h'.cap ∧ (h'.cap ≠ h.cap → h'.cap % c.quantum = 0 ∧ h'.kind = .heap) ∧ (h.kind = .heap → h'.kind = .heap))

theorem Handle.Lasts.refl (c : Config) (h : Handle) : h.Lasts c h :=
  .inr (.inr ⟨le_rfl, fun hne => absurd rfl hne, id⟩)

/-- The two records have the same kind and capacity. -/
def Handle.SameStorage (h h' : Handle) : Prop :=
  h'.kind = h.kind ∧ h'.cap = h.cap

theorem Handle.cleared_storage (h : Handle) : h.SameStorage h.cleared := ⟨rfl, rfl⟩

theorem Handle.store_storage (h : Handle) (m : Nat) (neg : Bool) : h.SameStorage (h.store m neg) := ⟨rfl, rfl⟩

theorem Handle.drawn_storage (h : Handle) (turn : Nat) : h.SameStorage (h.drawn turn) := ⟨rfl, rfl⟩

theorem Handle.withMag_storage (h : Handle) (m : Nat) : h.SameStorage (h.withMag m) := ⟨rfl, rfl⟩

theorem Handle.copied_storage (h src : Handle) : h.SameStorage (h.copied src) := ⟨rfl, rfl⟩

/-- Only the kind and the capacity of the new record count. -/
theorem Handle.Lasts.of_storage {k : Handle} (hl : h.Lasts cfg h') (hsame : h'.SameStorage k) : h.Lasts cfg k := by
  obtain ⟨hkind, hcap⟩ := hsame
  unfold Handle.Lasts
  rw [hkind, hcap]
  exact hl

/-- Every handle of `s` has begun or ended a lifetime on the way to `t`, or lasts there. -/
def StorageLasts (s t : State) : Prop :=
  ∀ j : Index, (s.handle j).Lasts s.cfg (t.handle j)

/-- A record write gives a handle its new record, or leaves it. -/
theorem State.handle_setHandle_cases (s : State) (d : Index) (h : Handle) (j : Index) :
    (d = j ∧ (s.setHandle d h).handle j = h) ∨ (s.setHandle d h).handle j = s.handle j := by
  by_cases hdj : d = j
  · subst hdj
    by_cases hd : d.toNat < s.handles.length
    · exact .inl ⟨rfl, State.handle_setHandle_same s d h hd⟩
    · exact .inr (by rw [State.handle, State.setHandle_handles, List.set_eq_of_length_le (by omega)]; rfl)
  · exact .inr (State.handle_setHandle_other s d j h hdj)

theorem StorageLasts.refl (s : State) : StorageLasts s s :=
  fun _ => .refl _ _

theorem StorageLasts.finish (hl : StorageLasts s t) (c : Code) (r : Word) : StorageLasts s (t.finish c r) :=
  hl

theorem StorageLasts.raise (hl : StorageLasts s t) (c : Code) : StorageLasts s (t.raise c) :=
  hl

theorem StorageLasts.nextTurn (hl : StorageLasts s t) : StorageLasts s t.nextTurn :=
  hl

theorem StorageLasts.respond (hl : StorageLasts s t) (k : Nat) : StorageLasts s (t.respond k) :=
  hl

theorem StorageLasts.setFree (hl : StorageLasts s t) (w : Word) : StorageLasts s (t.setFree w) :=
  hl

theorem StorageLasts.refused (s : State) : StorageLasts s (s.raise .invalidArgument) :=
  (StorageLasts.refl s).raise _

theorem StorageLasts.answered (s : State) (r : Word) : StorageLasts s (s.finish .ok r) :=
  (StorageLasts.refl s).finish _ _

theorem StorageLasts.ite {p : Prop} [Decidable p] (ht : p → StorageLasts s t) (hu : ¬p → StorageLasts s u) :
    StorageLasts s (if p then t else u) := by
  split
  · exact ht ‹_›
  · exact hu ‹_›

theorem StorageLasts.setHandle (hl : StorageLasts s t) (hh : (s.handle d).Lasts s.cfg h) : StorageLasts s (t.setHandle d h) := by
  intro j
  rcases t.handle_setHandle_cases d h j with ⟨rfl, he⟩ | he <;> rw [he]
  · exact hh
  · exact hl j

/-- A record write in the storage the handle has. -/
theorem StorageLasts.write (hl : StorageLasts s t) (hsame : (t.handle d).SameStorage h) : StorageLasts s (t.setHandle d h) :=
  hl.setHandle ((hl d).of_storage hsame)

/-- The growth step keeps the storage or moves it to a larger heap buffer of a multiple of the quantum (20_memory.md R61, R64). -/
theorem StorageLasts.grow (hq : 1 ≤ s.cfg.quantum) (hg : s.grow d n = .ok t) : StorageLasts s t := by
  rcases State.grow_ok hg with ⟨-, rfl⟩ | ⟨hlt, -, -, -, rfl⟩
  · exact .refl _
  · have hroom : wordsFor n ≤ growWords s.cfg n := le_roundUp hq _
    have hlarger : (s.handle d).cap ≤ growWords s.cfg n := by omega
    exact ((StorageLasts.refl s).nextTurn.setHandle
      (.inr (.inr ⟨hlarger, fun _ => ⟨roundUp_mod _ _, rfl⟩, fun _ => rfl⟩))).setFree _

theorem StorageLasts.grow_oom (hg : s.grow d n = .oom t) : StorageLasts s t := by
  rcases (State.grow_oom hg).1 with rfl | rfl
  · exact .refl _
  · exact (StorageLasts.refl s).nextTurn

theorem StorageLasts.growCommand (hq : 1 ≤ s.cfg.quantum) : StorageLasts s (s.growCommand d n) := by
  rcases s.growCommand_cases d n with ⟨t, hg, he⟩ | ⟨t, hg, he⟩ <;> rw [he]
  · exact (StorageLasts.grow hq hg).finish _ _
  · exact (StorageLasts.grow_oom hg).raise _

theorem StorageLasts.growWrite (hq : 1 ≤ s.cfg.quantum) : StorageLasts s (s.growWrite d n m neg) := by
  rcases s.growWrite_cases d n m neg with ⟨t, hg, he⟩ | ⟨t, hg, he⟩ <;> rw [he]
  · exact ((StorageLasts.grow hq hg).write (Handle.store_storage _ m neg)).finish _ _
  · exact ((StorageLasts.grow_oom hg).write (Handle.drawn_storage _ _)).nextTurn.raise _

theorem StorageLasts.signedSum (hq : 1 ≤ s.cfg.quantum) : StorageLasts s (s.signedSum d x y) :=
  .ite (fun _ => .growWrite hq) fun _ => .growWrite hq

/-- GROW of an UNINIT handle begins its lifetime; every other handle lasts (40_lifecycle.md R107). -/
theorem StorageLasts.freshGrow (hq : 1 ≤ s.cfg.quantum) (hk : (s.handle d).kind = .uninit) :
    StorageLasts s ((s.setHandle d (Handle.fresh s.cfg)).growCommand d n) := by
  intro j
  rcases s.handle_setHandle_cases d (Handle.fresh s.cfg) j with ⟨rfl, -⟩ | he
  · exact .inl hk
  · have hl := StorageLasts.growCommand (s := s.setHandle d (Handle.fresh s.cfg)) (d := d) (n := n) hq j
    rwa [he] at hl

theorem exec_next_storageLasts (hq : 1 ≤ s.cfg.quantum) (i : Instr) : ∃ t, exec i s = .next t ∧ StorageLasts s t := by
  have hrefl : StorageLasts s s := .refl s
  have hrefused : StorageLasts s (s.raise .invalidArgument) := .refused s
  cases i with
  | init d =>
    refine ⟨_, rfl, .ite (fun _ => hrefused) fun _ => .ite (fun _ => hrefused) fun hk => (hrefl.setHandle (.inl ?_)).finish _ _⟩
    simpa [State.initialized] using hk
  | destroy d => exact ⟨_, rfl, .ite (fun _ => hrefused) fun _ => ((hrefl.setHandle (.inr (.inl rfl))).setFree _).finish _ _⟩
  | grow d ext =>
    refine ⟨_, rfl, .ite (fun _ => hrefused) fun _ => .ite (fun hk => .freshGrow hq ?_) fun _ =>
      .ite (fun _ => hrefused) fun _ => .growCommand hq⟩
    simpa [State.initialized] using hk
  | zero d =>
    exact ⟨_, rfl, .ite (fun _ => hrefused) fun _ => .ite (fun _ => hrefused) fun _ => (hrefl.write (Handle.cleared_storage _)).finish _ _⟩
  | seti d ext =>
    exact ⟨_, rfl, .ite (fun _ => hrefused) fun _ => .ite (fun _ => hrefused) fun _ => (hrefl.write (Handle.store_storage _ _ _)).finish _ _⟩
  | copy d a =>
    refine ⟨_, rfl, .ite (fun _ => hrefused) fun _ => .ite (fun _ => hrefused) fun _ => .ite (fun _ => .answered s _) fun _ =>
      .ite (fun _ => hrefused) fun _ => .ite (fun _ => (hrefl.write (Handle.cleared_storage _)).finish _ _) fun _ => ?_⟩
    split
    · exact (StorageLasts.grow_oom ‹_›).raise _
    · exact ((StorageLasts.grow hq ‹_›).write (Handle.copied_storage _ _)).finish _ _
  | add d a b => exact ⟨_, rfl, .ite (fun _ => hrefused) fun _ => .signedSum hq⟩
  | sub d a b => exact ⟨_, rfl, .ite (fun _ => hrefused) fun _ => .signedSum hq⟩
  | addabs d a b => exact ⟨_, rfl, .ite (fun _ => hrefused) fun _ => .growWrite hq⟩
  | subabs d a b => exact ⟨_, rfl, .ite (fun _ => hrefused) fun _ => .growWrite hq⟩
  | incabs d =>
    refine ⟨_, rfl, .ite (fun _ => hrefused) fun _ => .ite (fun _ => hrefused) fun _ =>
      .ite (fun _ => (hrefl.write (Handle.withMag_storage _ _)).finish _ _) fun _ => ?_⟩
    split
    · exact (StorageLasts.grow_oom ‹_›).raise _
    · exact ((StorageLasts.grow hq ‹_›).write (Handle.withMag_storage _ _)).finish _ _
  | cmp a b => exact ⟨_, rfl, .ite (fun _ => hrefused) fun _ => .answered s _⟩
  | cmpabs a b => exact ⟨_, rfl, .ite (fun _ => hrefused) fun _ => .answered s _⟩
  | qmsb a => exact ⟨_, rfl, .ite (fun _ => hrefused) fun _ => .answered s _⟩
  | qneg a => exact ⟨_, rfl, .ite (fun _ => hrefused) fun _ => .answered s _⟩
  | qcap a => exact ⟨_, rfl, .ite (fun _ => hrefused) fun _ => .answered s _⟩
  | qword a ext => exact ⟨_, rfl, .ite (fun _ => hrefused) fun _ => .ite (fun _ => hrefused) fun _ => .answered s _⟩
  | qstate a => exact ⟨_, rfl, .ite (fun _ => hrefused) fun _ => .answered s _⟩
  | qfree => exact ⟨_, rfl, .answered s _⟩

theorem exec_storageLasts (hq : 1 ≤ s.cfg.quantum) (h : exec i s = .next t) : StorageLasts s t :=
  of_exec_next (exec_next_storageLasts hq i) h

/-- A reset ends every lifetime (70_reset_and_hazards.md R240). -/
theorem StorageLasts.takeReset (s : State) : StorageLasts s s.takeReset := by
  intro j
  have hreset : s.takeReset.handle j = Handle.reset := by simp [State.handle]
  exact .inr (.inl (by rw [hreset]; rfl))

/-! ## The statements -/

/-- Settles O2: the state after reset is a block with an empty handle file. -/
theorem resetMeetsTheInvariant : Obligations.ResetMeetsTheInvariant :=
  ⟨fun c hc => .of_reset (s := .resetWith c) hc rfl rfl rfl rfl, .of_reset (s := .reset) (by decide) rfl rfl rfl rfl⟩

/-- Settles O16, by the cases of a step: every command keeps the invariant, and a reset, idling, waiting and a rejected word do. -/
theorem stepKeepsTheInvariant : Obligations.StepKeepsTheInvariant := by
  intro s t hs h
  obtain ⟨hl, ⟨-, rfl⟩ | ⟨-, ⟨-, rfl⟩ | ⟨w, hf, rfl⟩ | ⟨ws, i, rest, u, -, -, he, rfl⟩ | ⟨ws, e, -, -, rfl⟩⟩⟩ := step_cases h
  · exact s.inv_takeReset hl
  · exact hs.rest
  · exact hs.wait (State.fetch_incomplete hf).2
  · exact (exec_inv hs he).respond _
  · exact (hs.raise _).respond _

/-- Settles O17, by the cases of a step: in every command each handle's storage lasts, a reset ends every lifetime, and no other step writes a handle. -/
theorem lifetimeKeepsItsStorage : Obligations.LifetimeKeepsItsStorage := by
  intro s t j hs h _
  suffices hlasts : StorageLasts s t from hlasts j
  obtain ⟨hl, ⟨-, rfl⟩ | ⟨-, ⟨-, rfl⟩ | ⟨w, -, rfl⟩ | ⟨ws, i, rest, u, -, -, he, rfl⟩ | ⟨ws, e, -, -, rfl⟩⟩⟩ := step_cases h
  · exact .takeReset s
  · exact .refl s
  · exact .refl s
  · exact (exec_storageLasts hs.legal.quantum_pos he).respond _
  · exact .refl s

end Sys2Proof.Machine
end

section
/-!
Command words that no row of the opcode table matches: the decoder rejects them, and a step only reports them.
-/

namespace Sys2Proof

variable {w ext : Word} {i : Instr} {e : DecodeError}

/-! ## The rows of the table (30_encoding.md R86, R87, R90) -/

theorem commandWord_and (op op' : BitVec 8) (xd xa xb xd' xa' xb' : Index) :
    commandWord op xd xa xb &&& commandWord op' xd' xa' xb' =
      commandWord (op &&& op') (xd &&& xd') (xa &&& xa') (xb &&& xb') := by
  simp only [commandWord, BitVec.cast_eq]
  exact BitVec.and_append.trans (congrArg (· ++ _) (BitVec.and_append.trans (congrArg (· ++ _) BitVec.and_append)))

/-- The part of a row's mask over a handle field: the field is matched, as zero, where the format does not use it. -/
def fieldMask (used : Bool) : Index :=
  if used then 0 else 0xFF

/-- The mask of the rows of a format. -/
def Format.mask (f : Format) : Word :=
  commandWord 0xFF (fieldMask f.usesXD) (fieldMask f.usesXA) (fieldMask f.usesXB)

theorem exists_row_of_opcode (o : Opcode) :
    ∃ r ∈ opcodeTable, r.bits = commandWord o.value 0 0 0 ∧ r.mask = o.format.mask := by
  cases o <;> decide

theorem and_fieldMask {used : Bool} {x : Index} (h : (used || x == 0) = true) : x &&& fieldMask used = 0 := by
  cases used with
  | true => simp [fieldMask]
  | false =>
    have hx : x = 0 := by simpa using h
    simp [hx]

/-- A format's mask keeps of a command word whose unused fields are zero its opcode alone. -/
theorem and_formatMask {f : Format} (h : f.reservedZero w = true) : w &&& f.mask = commandWord (opField w) 0 0 0 := by
  obtain ⟨⟨hd, ha⟩, hb⟩ : (_ ∧ _) ∧ _ := by simpa only [Format.reservedZero, Bool.and_eq_true] using h
  have hop : opField w &&& 0xFF = opField w := BitVec.and_allOnes
  calc w &&& f.mask
      = commandWord (opField w) (xdField w) (xaField w) (xbField w) &&& f.mask := by rw [commandWord_fields]
    _ = commandWord (opField w) 0 0 0 := by
      rw [Format.mask, commandWord_and, hop, and_fieldMask hd, and_fieldMask ha, and_fieldMask hb]

/-- A command word that decodes has a defined opcode, and zero in every field its format does not use. -/
theorem decodeCommand_ok (h : decodeCommand w ext = .ok i) :
    ∃ o, Opcode.ofField (opField w) = some o ∧ o.format.reservedZero w = true := by
  unfold decodeCommand at h
  split at h
  · cases h
  · rename_i o ho
    split at h
    · exact ⟨o, ho, ‹_›⟩
    · cases h

theorem exists_row_of_decodeCommand (h : decodeCommand w ext = .ok i) : ∃ r ∈ opcodeTable, r.matchesWord w = true := by
  obtain ⟨o, ho, hzero⟩ := decodeCommand_ok h
  obtain ⟨r, hr, hbits, hmask⟩ := exists_row_of_opcode o
  refine ⟨r, hr, beq_iff_eq.2 ?_⟩
  rw [hbits, hmask, and_formatMask hzero, value_of_ofField _ ho]

theorem decodeCommand_of_no_row (h : ∀ r ∈ opcodeTable, r.matchesWord w = false) (ext : Word) :
    ∃ e, decodeCommand w ext = .error e := by
  cases hd : decodeCommand w ext with
  | error e => exact ⟨e, rfl⟩
  | ok i =>
    obtain ⟨r, hr, hmatch⟩ := exists_row_of_decodeCommand hd
    exact absurd hmatch (by simp [h r hr])

theorem decode_one_error (hlen : commandLength w = 1) (h : decodeCommand w 0 = .error e) : decode [w] = .error e := by
  simp only [decode, hlen, h, if_true]

theorem decode_two_error (hlen : commandLength w = 2) (h : decodeCommand w ext = .error e) : decode [w, ext] = .error e := by
  simp only [decode, hlen, h]
  rfl

end Sys2Proof

namespace Sys2Proof.Machine

variable {s : State} {w ext : Word}

/-! ## The step that reports one (60_exceptions.md R211) -/

theorem State.fetch_one (hw : s.commandWord? = some w) (hlen : commandLength w = 1) : s.fetch = .command [w] := by
  simp [State.fetch, hw, hlen]

theorem State.fetch_two (hw : s.commandWord? = some w) (hlen : commandLength w = 2) (hext : s.program[s.pc + 1]? = some ext) :
    s.fetch = .command [w, ext] := by
  simp [State.fetch, hw, hlen, hext]

/-- A command word that no row of the table matches only sets STATUS and RESULT, and all its words are consumed. -/
theorem step_of_no_row (hl : s.cfg.Legal) (hr : s.resetRequest = false) (hw : s.commandWord? = some w)
    (hrow : ∀ r ∈ opcodeTable, r.matchesWord w = false) (hext : commandLength w = 2 → s.program[s.pc + 1]? ≠ none) :
    step s = .next (s.illegal.respond (commandLength w)) := by
  rw [step_of_fetch hl hr]
  rcases commandLength_le_two w with hlen | hlen
  · obtain ⟨e, he⟩ := decodeCommand_of_no_row hrow 0
    simp only [State.fetch_one hw hlen, decode_one_error hlen he, hlen]
    rfl
  · obtain ⟨ext, hx⟩ := Option.ne_none_iff_exists'.1 (hext hlen)
    obtain ⟨e, he⟩ := decodeCommand_of_no_row hrow ext
    simp only [State.fetch_two hw hlen hx, decode_two_error hlen he, hlen]
    rfl

end Sys2Proof.Machine
end

section
/-!
What a command reports, and when it leaves FREE: the commands that return a result only report, and the others return none.
-/

namespace Sys2Proof.Machine

variable {s t u : State} {i : Instr}

/-! ## Commands that only report (42_compare.md R183, 43_query.md R201) -/

/-- `t` is `s` after a report, with a result only where the code is OK. -/
def State.Reports (s t : State) : Prop :=
  ∃ c r, t = s.finish c r ∧ (c ≠ .ok → r = 0)

theorem State.Reports.refused (s : State) : s.Reports (s.raise .invalidArgument) :=
  ⟨_, _, rfl, fun _ => rfl⟩

theorem State.Reports.answered (s : State) (r : Word) : s.Reports (s.finish .ok r) :=
  ⟨_, _, rfl, fun hc => absurd rfl hc⟩

theorem State.Reports.ite {p : Prop} [Decidable p] (ht : s.Reports t) (hu : s.Reports u) : s.Reports (if p then t else u) := by
  split
  · exact ht
  · exact hu

theorem exec_next_reports (hi : i.returnsResult = true) (s : State) : ∃ t, exec i s = .next t ∧ s.Reports t := by
  cases i with
  | init | destroy | grow | zero | seti | copy | add | sub | addabs | subabs | incabs => cases hi
  | cmp a b => exact ⟨_, rfl, .ite (.refused s) (.answered s _)⟩
  | cmpabs a b => exact ⟨_, rfl, .ite (.refused s) (.answered s _)⟩
  | qmsb a => exact ⟨_, rfl, .ite (.refused s) (.answered s _)⟩
  | qneg a => exact ⟨_, rfl, .ite (.refused s) (.answered s _)⟩
  | qcap a => exact ⟨_, rfl, .ite (.refused s) (.answered s _)⟩
  | qword a ext => exact ⟨_, rfl, .ite (.refused s) (.ite (.refused s) (.answered s _))⟩
  | qstate a => exact ⟨_, rfl, .ite (.refused s) (.answered s _)⟩
  | qfree => exact ⟨_, rfl, .answered s _⟩

theorem exec_reports (hi : i.returnsResult = true) (h : exec i s = .next t) : s.Reports t :=
  of_exec_next (exec_next_reports hi s) h

/-! ## Commands without a result (10_state.md R31) -/

/-- A field that both branches of a check give the same value. -/
theorem State.field_ite {f : State → Word} {w : Word} {p : Prop} [Decidable p] (ht : f t = w) (hu : f u = w) :
    f (if p then t else u) = w := by
  split
  · exact ht
  · exact hu

theorem State.result_growCommand (s : State) (d : Index) (n : Nat) : (s.growCommand d n).result = 0 := by
  rcases s.growCommand_cases d n with ⟨t, -, he⟩ | ⟨t, -, he⟩ <;> rw [he] <;> rfl

theorem State.result_growWrite (s : State) (d : Index) (n m : Nat) (neg : Bool) : (s.growWrite d n m neg).result = 0 := by
  rcases s.growWrite_cases d n m neg with ⟨t, -, he⟩ | ⟨t, -, he⟩ <;> rw [he] <;> rfl

theorem State.result_signedSum (s : State) (d : Index) (x y : Operand) : (s.signedSum d x y).result = 0 :=
  State.field_ite (s.result_growWrite d _ _ _) (s.result_growWrite d _ _ _)

theorem exec_next_result (hi : i.returnsResult = false) (s : State) : ∃ t, exec i s = .next t ∧ t.result = 0 := by
  cases i with
  | init d => exact ⟨_, rfl, State.field_ite rfl (State.field_ite rfl rfl)⟩
  | destroy d => exact ⟨_, rfl, State.field_ite rfl rfl⟩
  | grow d ext =>
    exact ⟨_, rfl, State.field_ite rfl
      (State.field_ite (State.result_growCommand _ _ _) (State.field_ite rfl (State.result_growCommand _ _ _)))⟩
  | zero d => exact ⟨_, rfl, State.field_ite rfl (State.field_ite rfl rfl)⟩
  | seti d ext => exact ⟨_, rfl, State.field_ite rfl (State.field_ite rfl rfl)⟩
  | copy d a =>
    refine ⟨_, rfl, State.field_ite rfl (State.field_ite rfl (State.field_ite rfl (State.field_ite rfl (State.field_ite rfl ?_))))⟩
    split <;> rfl
  | add d a b => exact ⟨_, rfl, State.field_ite rfl (State.result_signedSum _ _ _ _)⟩
  | sub d a b => exact ⟨_, rfl, State.field_ite rfl (State.result_signedSum _ _ _ _)⟩
  | addabs d a b => exact ⟨_, rfl, State.field_ite rfl (State.result_growWrite _ _ _ _ _)⟩
  | subabs d a b => exact ⟨_, rfl, State.field_ite rfl (State.result_growWrite _ _ _ _ _)⟩
  | incabs d =>
    refine ⟨_, rfl, State.field_ite rfl (State.field_ite rfl (State.field_ite rfl ?_))⟩
    split <;> rfl
  | cmp | cmpabs | qmsb | qneg | qcap | qword | qstate | qfree => cases hi

theorem exec_result (hi : i.returnsResult = false) (h : exec i s = .next t) : t.result = 0 :=
  of_exec_next (exec_next_result hi s) h

/-! ## FREE (10_state.md R32) -/

theorem State.Reports.free (h : s.Reports t) : t.free = s.free := by
  obtain ⟨c, r, rfl, -⟩ := h
  rfl

/-- A command that neither grows nor destroys a handle writes one in the storage it has, initializes one, or only reports. -/
theorem exec_next_free (hgrow : growing i = false) (hdestroy : ∀ d, i ≠ .destroy d) (s : State) :
    ∃ t, exec i s = .next t ∧ t.free = s.free := by
  have hquery : i.returnsResult = true → ∃ t, exec i s = .next t ∧ t.free = s.free := fun hi =>
    (exec_next_reports hi s).imp fun _ h => h.imp_right State.Reports.free
  cases i with
  | init d => exact ⟨_, rfl, State.field_ite rfl (State.field_ite rfl rfl)⟩
  | destroy d => exact absurd rfl (hdestroy d)
  | zero d => exact ⟨_, rfl, State.field_ite rfl (State.field_ite rfl rfl)⟩
  | seti d ext => exact ⟨_, rfl, State.field_ite rfl (State.field_ite rfl rfl)⟩
  | grow | copy | add | sub | addabs | subabs | incabs => cases hgrow
  | cmp | cmpabs | qmsb | qneg | qcap | qword | qstate | qfree => exact hquery rfl

/-! ## The statements -/

/-- Settles O19: a command that neither grows nor destroys a handle ends with FREE as it was. -/
theorem freeChangesOnlyByGrowthAndDestroy : Obligations.FreeChangesOnlyByGrowthAndDestroy := by
  intro i s t h hgrow hdestroy
  exact of_exec_next (exec_next_free hgrow hdestroy s) h

theorem endedWith_illegal (s : State) : EndedWith s.illegal .illegalCommand :=
  statusCode_word _ _

/-- Settles O21: a command without a result reports 0, any other reports one only with OK, and an illegal command word is reported by a raise. -/
theorem resultIsZeroUnlessReturned : Obligations.ResultIsZeroUnlessReturned := by
  refine ⟨fun i s t h hi => ?_, fun s => ⟨endedWith_illegal s, rfl⟩, fun s w hl hr hw hrow hext =>
    ⟨_, step_of_no_row hl hr hw hrow hext, endedWith_illegal s, rfl⟩⟩
  cases hret : i.returnsResult with
  | false => exact exec_result hret h
  | true =>
    obtain ⟨c, r, rfl, hzero⟩ := exec_reports hret h
    refine hzero fun hok => ?_
    rcases hi with hno | hfailed
    · rw [hret] at hno
      cases hno
    · exact hfailed (by rw [hok]; exact statusCode_word _ _)

end Sys2Proof.Machine
end

section
/-!
Two states that differ only in what inline buffers hold while they back no magnitude: every check, every operand and every record update sees the same in
both, so every command and every step does.
-/

namespace Sys2Proof.Machine

variable {s s' t t' u u' : State} {h h' src src' : Handle}

/-! ## Handles without their leftovers -/

/-- The record with the words left behind in its inline buffer forgotten (10_state.md R34). -/
def Handle.forgetInline (h : Handle) : Handle :=
  { h with inlineBuf := 0 }

/-- The two records differ at most in what their inline buffers hold while they back no magnitude. -/
def Handle.Alike (h h' : Handle) : Prop :=
  h.forgetInline = h'.forgetInline

namespace Handle.Alike

/-- What does not read the leftovers is the same of both. -/
theorem read {α : Type} (hh : h.Alike h') (f : Handle → α) (hf : ∀ k, f k.forgetInline = f k) : f h = f h' := by
  rw [← hf h, ← hf h', hh]

/-- An update that reads the leftovers at most to leave others keeps the records alike. -/
theorem update (hh : h.Alike h') (f : Handle → Handle) (hf : ∀ k, (f k.forgetInline).Alike (f k)) : (f h).Alike (f h') :=
  hh.read (fun k => (f k).forgetInline) hf

theorem kind (hh : h.Alike h') : h.kind = h'.kind := hh.read Handle.kind fun _ => rfl

theorem cap (hh : h.Alike h') : h.cap = h'.cap := hh.read Handle.cap fun _ => rfl

theorem mag (hh : h.Alike h') : h.mag = h'.mag := hh.read Handle.mag fun _ => rfl

theorem msb (hh : h.Alike h') : h.msb = h'.msb := hh.read Handle.msb fun _ => rfl

theorem neg (hh : h.Alike h') : h.neg = h'.neg := hh.read Handle.neg fun _ => rfl

theorem indet (hh : h.Alike h') : h.indet = h'.indet := hh.read Handle.indet fun _ => rfl

theorem operand (hh : h.Alike h') : h.operand = h'.operand := hh.read Handle.operand fun _ => rfl

theorem stateWord (hh : h.Alike h') : h.stateWord = h'.stateWord := hh.read Handle.stateWord fun _ => rfl

theorem heapWords (hh : h.Alike h') : h.heapWords = h'.heapWords := hh.read Handle.heapWords fun _ => rfl

theorem cleared (hh : h.Alike h') : h.cleared.Alike h'.cleared := hh.update Handle.cleared fun _ => rfl

theorem store (hh : h.Alike h') (m : Nat) (neg : Bool) : (h.store m neg).Alike (h'.store m neg) :=
  hh.update (Handle.store · m neg) fun _ => rfl

theorem drawn (hh : h.Alike h') (turn : Nat) : (h.drawn turn).Alike (h'.drawn turn) := hh.update (Handle.drawn · turn) fun _ => rfl

theorem withMag (hh : h.Alike h') (m : Nat) : (h.withMag m).Alike (h'.withMag m) := hh.update (Handle.withMag · m) fun _ => rfl

theorem copied (hh : h.Alike h') (hsrc : src.Alike src') : (h.copied src).Alike (h'.copied src') :=
  Eq.trans (hh.update (Handle.copied · src) fun _ => rfl)
    (hsrc.read (fun k => (h'.copied k).forgetInline) fun _ => rfl)

/-- A release leaves nothing but leftovers of the record it releases (40_lifecycle.md R103). -/
theorem destroyed (h h' : Handle) : h.destroyed.Alike h'.destroyed := rfl

/-- The words an inline buffer keeps when its handle moves to the heap become leftovers (10_state.md R34). -/
theorem grown (hh : h.Alike h') (n : Nat) : (h.grown n).Alike (h'.grown n) :=
  hh.update (Handle.grown · n) fun _ => rfl

end Handle.Alike

/-! ## States without their leftovers -/

theorem State.handle_forgetInline (s : State) (i : Index) : s.forgetInline.handle i = (s.handle i).forgetInline :=
  List.getD_map s.handles Handle.reset Handle.forgetInline

theorem State.forgetInline_setHandle (s : State) (i : Index) (h : Handle) :
    (s.setHandle i h).forgetInline = s.forgetInline.setHandle i h.forgetInline := by
  simp [State.forgetInline, State.setHandle, List.map_set, Handle.forgetInline]

/-- The two states differ at most in the leftovers of inline buffers. -/
def State.Alike (s s' : State) : Prop :=
  s.forgetInline = s'.forgetInline

namespace State.Alike

/-- What does not read the leftovers is the same of both. -/
theorem read {α : Type} (hs : s.Alike s') (f : State → α) (hf : ∀ v, f v.forgetInline = f v) : f s = f s' := by
  rw [← hf s, ← hf s', hs]

/-- An update that neither reads nor writes a record keeps the states alike. -/
theorem update (hs : s.Alike s') (f : State → State) (hf : ∀ v, (f v).forgetInline = f v.forgetInline) : (f s).Alike (f s') := by
  unfold State.Alike
  rw [hf, hf, hs]

/-! ### What such states have in common -/

theorem cfg (hs : s.Alike s') : s.cfg = s'.cfg := hs.read State.cfg fun _ => rfl

theorem free (hs : s.Alike s') : s.free = s'.free := hs.read State.free fun _ => rfl

theorem status (hs : s.Alike s') : s.status = s'.status := hs.read State.status fun _ => rfl

theorem result (hs : s.Alike s') : s.result = s'.result := hs.read State.result fun _ => rfl

theorem resetRequest (hs : s.Alike s') : s.resetRequest = s'.resetRequest := hs.read State.resetRequest fun _ => rfl

theorem turn (hs : s.Alike s') : s.turn = s'.turn := hs.read State.turn fun _ => rfl

theorem fetch (hs : s.Alike s') : s.fetch = s'.fetch := hs.read State.fetch fun _ => rfl

theorem badIndex (hs : s.Alike s') (is : List Index) : s.badIndex is = s'.badIndex is := hs.read (State.badIndex · is) fun _ => rfl

theorem granted (hs : s.Alike s') (n : Nat) : s.granted n = s'.granted n := hs.read (State.granted · n) fun _ => rfl

theorem handle (hs : s.Alike s') (i : Index) : (s.handle i).Alike (s'.handle i) := by
  unfold Handle.Alike
  rw [← State.handle_forgetInline, ← State.handle_forgetInline, hs]

theorem operand (hs : s.Alike s') (i : Index) : s.operand i = s'.operand i := (hs.handle i).operand

theorem initialized (hs : s.Alike s') (i : Index) : s.initialized i = s'.initialized i := by
  simp only [State.initialized, (hs.handle i).kind]

theorem readable (hs : s.Alike s') (i : Index) : s.readable i = s'.readable i := by
  simp only [State.readable, hs.initialized i, (hs.handle i).indet]

theorem arithRefused (hs : s.Alike s') (d a b : Index) : s.arithRefused d a b = s'.arithRefused d a b := by
  simp only [State.arithRefused, hs.badIndex, hs.readable, hs.initialized]

theorem compareRefused (hs : s.Alike s') (a b : Index) : s.compareRefused a b = s'.compareRefused a b := by
  simp only [State.compareRefused, hs.badIndex, hs.readable]

theorem queryRefused (hs : s.Alike s') (a : Index) : s.queryRefused a = s'.queryRefused a := by
  simp only [State.queryRefused, hs.badIndex, hs.readable]

/-! ### Operations keep them alike -/

theorem ite {p p' : Prop} [Decidable p] [Decidable p'] (hp : p = p') (ht : t.Alike t') (hu : u.Alike u') :
    State.Alike (if p then t else u) (if p' then t' else u') := by
  subst hp
  by_cases hc : p
  · rwa [if_pos hc, if_pos hc]
  · rwa [if_neg hc, if_neg hc]

theorem setHandle (hs : s.Alike s') (i : Index) (hh : h.Alike h') : (s.setHandle i h).Alike (s'.setHandle i h') := by
  unfold State.Alike
  rw [State.forgetInline_setHandle, State.forgetInline_setHandle, hs, hh]

theorem setFree (hs : s.Alike s') {w w' : Word} (hw : w = w') : (s.setFree w).Alike (s'.setFree w') := by
  subst hw
  exact hs.update (State.setFree · w) fun _ => rfl

theorem finish (hs : s.Alike s') (c : Code) {r r' : Word} (hr : r = r') : (s.finish c r).Alike (s'.finish c r') := by
  subst hr
  exact hs.update (State.finish · c r) fun _ => rfl

theorem raise (hs : s.Alike s') (c : Code) : (s.raise c).Alike (s'.raise c) := hs.finish c rfl

theorem nextTurn (hs : s.Alike s') : s.nextTurn.Alike s'.nextTurn := hs.update State.nextTurn fun _ => rfl

theorem respond (hs : s.Alike s') (n : Nat) : (s.respond n).Alike (s'.respond n) := hs.update (State.respond · n) fun _ => rfl

theorem wait (hs : s.Alike s') (w : Word) : (s.wait w).Alike (s'.wait w) := hs.update (State.wait · w) fun _ => rfl

theorem rest (hs : s.Alike s') : s.rest.Alike s'.rest := hs.update State.rest fun _ => rfl

theorem takeReset (hs : s.Alike s') : s.takeReset.Alike s'.takeReset :=
  hs.read (fun v => v.takeReset.forgetInline) fun _ => rfl

theorem install (hs : s.Alike s') (i : Index) (n : Nat) : (s.install i n).Alike (s'.install i n) := by
  have hh := hs.handle i
  exact (hs.setHandle i (hh.grown n)).setFree (by rw [hs.free, hh.heapWords])

/-- The growth step meets the same answer in both states. -/
theorem grow (hs : s.Alike s') (i : Index) (n : Nat) :
    (∃ t t', s.grow i n = .ok t ∧ s'.grow i n = .ok t' ∧ t.Alike t') ∨
    (∃ t t', s.grow i n = .oom t ∧ s'.grow i n = .oom t' ∧ t.Alike t') := by
  unfold State.grow
  rw [← (hs.handle i).cap, ← hs.cfg, ← hs.free, ← hs.granted]
  split
  · exact .inl ⟨_, _, rfl, rfl, hs⟩
  · split
    · exact .inr ⟨_, _, rfl, rfl, hs⟩
    · split
      · exact .inl ⟨_, _, rfl, rfl, hs.nextTurn.install i _⟩
      · exact .inr ⟨_, _, rfl, rfl, hs.nextTurn⟩

theorem growCommand (hs : s.Alike s') (i : Index) (n : Nat) : (s.growCommand i n).Alike (s'.growCommand i n) := by
  unfold State.growCommand
  rcases hs.grow i n with ⟨t, t', hg, hg', ht⟩ | ⟨t, t', hg, hg', ht⟩ <;> rw [hg, hg']
  · exact ht.finish _ rfl
  · exact ht.raise _

theorem writeResult (hs : s.Alike s') (i : Index) (m : Nat) (neg : Bool) :
    (s.writeResult i m neg).Alike (s'.writeResult i m neg) :=
  (hs.setHandle i ((hs.handle i).store m neg)).finish _ rfl

theorem failWeak (hs : s.Alike s') (i : Index) : (s.failWeak i).Alike (s'.failWeak i) := by
  unfold State.failWeak
  rw [← hs.turn]
  exact (hs.setHandle i ((hs.handle i).drawn s.turn)).nextTurn.raise _

theorem growWrite (hs : s.Alike s') (i : Index) (n m : Nat) (neg : Bool) :
    (s.growWrite i n m neg).Alike (s'.growWrite i n m neg) := by
  unfold State.growWrite
  rcases hs.grow i n with ⟨t, t', hg, hg', ht⟩ | ⟨t, t', hg, hg', ht⟩ <;> rw [hg, hg']
  · exact ht.writeResult i m neg
  · exact ht.failWeak i

theorem signedSum (hs : s.Alike s') (i : Index) (x y : Operand) : (s.signedSum i x y).Alike (s'.signedSum i x y) :=
  .ite rfl (hs.growWrite i _ _ _) (hs.growWrite i _ _ _)

end State.Alike

/-! ## Every command and every step -/

theorem exec_alike (hs : s.Alike s') (i : Instr) : ∃ t t', exec i s = .next t ∧ exec i s' = .next t' ∧ t.Alike t' := by
  have hrefused := hs.raise .invalidArgument
  cases i with
  | init d =>
    refine ⟨_, _, rfl, rfl, .ite (by rw [hs.badIndex]) hrefused (.ite (by rw [hs.initialized]) hrefused ?_)⟩
    rw [← hs.cfg]
    exact (hs.setHandle d rfl).finish _ rfl
  | destroy d =>
    refine ⟨_, _, rfl, rfl, .ite (by rw [hs.badIndex]) hrefused (.finish (.setFree (hs.setHandle d (.destroyed _ _)) ?_) _ rfl)⟩
    rw [hs.free, (hs.handle d).heapWords]
  | grow d ext =>
    refine ⟨_, _, rfl, rfl, .ite (by rw [hs.badIndex]) hrefused (.ite (by rw [hs.initialized]) ?_
      (.ite (by rw [(hs.handle d).indet]) hrefused (hs.growCommand d _)))⟩
    rw [← hs.cfg]
    exact (hs.setHandle d rfl).growCommand d _
  | zero d =>
    exact ⟨_, _, rfl, rfl, .ite (by rw [hs.badIndex]) hrefused (.ite (by rw [hs.initialized]) hrefused
      ((hs.setHandle d (hs.handle d).cleared).finish _ rfl))⟩
  | seti d ext =>
    exact ⟨_, _, rfl, rfl, .ite (by rw [hs.badIndex]) hrefused (.ite (by rw [hs.initialized]) hrefused (hs.writeResult d _ _))⟩
  | copy d a =>
    refine ⟨_, _, rfl, rfl, .ite (by rw [hs.badIndex]) hrefused (.ite (by rw [hs.readable]) hrefused
      (.ite rfl (hs.finish _ rfl) (.ite (by rw [hs.initialized]) hrefused (.ite (by rw [(hs.handle a).msb])
        ((hs.setHandle d (hs.handle d).cleared).finish _ rfl) ?_))))⟩
    rw [← (hs.handle a).msb]
    rcases hs.grow d (s.handle a).msb.toNat with ⟨t, t', hg, hg', ht⟩ | ⟨t, t', hg, hg', ht⟩ <;> rw [hg, hg']
    · exact (ht.setHandle d ((ht.handle d).copied (hs.handle a))).finish _ rfl
    · exact ht.raise _
  | add d a b =>
    refine ⟨_, _, rfl, rfl, .ite (by rw [hs.arithRefused]) hrefused ?_⟩
    rw [← hs.operand, ← hs.operand]
    exact hs.signedSum d _ _
  | sub d a b =>
    refine ⟨_, _, rfl, rfl, .ite (by rw [hs.arithRefused]) hrefused ?_⟩
    rw [← hs.operand, ← hs.operand]
    exact hs.signedSum d _ _
  | addabs d a b =>
    refine ⟨_, _, rfl, rfl, .ite (by rw [hs.arithRefused]) hrefused ?_⟩
    rw [← hs.operand, ← hs.operand]
    exact hs.growWrite d _ _ _
  | subabs d a b =>
    refine ⟨_, _, rfl, rfl, .ite (by rw [hs.arithRefused]) hrefused ?_⟩
    rw [← hs.operand, ← hs.operand]
    exact hs.growWrite d _ _ _
  | incabs d =>
    have hh := hs.handle d
    refine ⟨_, _, rfl, rfl, .ite (by rw [hs.badIndex]) hrefused (.ite (by rw [hs.readable]) hrefused
      (.ite (by rw [hh.msb]) ((hs.setHandle d (hh.withMag 1)).finish _ rfl) ?_))⟩
    rw [← hh.msb, ← hh.mag]
    rcases hs.grow d ((s.handle d).msb.toNat + 1) with ⟨t, t', hg, hg', ht⟩ | ⟨t, t', hg, hg', ht⟩ <;> rw [hg, hg']
    · exact (ht.setHandle d ((ht.handle d).withMag _)).finish _ rfl
    · exact ht.raise _
  | cmp a b =>
    exact ⟨_, _, rfl, rfl, .ite (by rw [hs.compareRefused]) hrefused (hs.finish _ (by rw [hs.operand, hs.operand]))⟩
  | cmpabs a b =>
    exact ⟨_, _, rfl, rfl, .ite (by rw [hs.compareRefused]) hrefused (hs.finish _ (by rw [hs.operand, hs.operand]))⟩
  | qmsb a => exact ⟨_, _, rfl, rfl, .ite (by rw [hs.queryRefused]) hrefused (hs.finish _ (hs.handle a).msb)⟩
  | qneg a => exact ⟨_, _, rfl, rfl, .ite (by rw [hs.queryRefused]) hrefused (hs.finish _ (by rw [(hs.handle a).neg]))⟩
  | qcap a => exact ⟨_, _, rfl, rfl, .ite (by rw [hs.queryRefused]) hrefused (hs.finish _ (by rw [(hs.handle a).cap]))⟩
  | qword a ext =>
    exact ⟨_, _, rfl, rfl, .ite (by rw [hs.queryRefused]) hrefused (.ite (by rw [(hs.handle a).cap]) hrefused
      (hs.finish _ (by rw [(hs.handle a).mag])))⟩
  | qstate a => exact ⟨_, _, rfl, rfl, .ite (by rw [hs.badIndex]) hrefused (hs.finish _ (hs.handle a).stateWord)⟩
  | qfree => exact ⟨_, _, rfl, rfl, hs.finish _ hs.free⟩

theorem step_alike (hs : s.Alike s') (h : step s = .next t) : ∃ t', step s' = .next t' ∧ t.Alike t' := by
  obtain ⟨hl, hcases⟩ := step_cases h
  rw [hs.cfg] at hl
  rw [hs.resetRequest, hs.fetch] at hcases
  rcases hcases with ⟨hr, rfl⟩ | ⟨hr, hcases⟩
  · exact ⟨_, step_of_reset hl hr, hs.takeReset⟩
  rw [step_of_fetch hl hr]
  rcases hcases with ⟨hf, rfl⟩ | ⟨w, hf, rfl⟩ | ⟨ws, i, rest, u, hf, hd, he, rfl⟩ | ⟨ws, e, hf, hd, rfl⟩
  · exact ⟨_, by rw [hf], hs.rest⟩
  · exact ⟨_, by rw [hf], hs.wait w⟩
  · obtain ⟨v, v', hv, hv', halike⟩ := exec_alike hs i
    cases hv.symm.trans he
    exact ⟨v'.respond ws.length, by simp only [hf, hd, hv']; rfl, halike.respond _⟩
  · exact ⟨s'.illegal.respond ws.length, by simp only [hf, hd]; rfl, (hs.raise _).respond _⟩

/-- Settles O26: alike states step to alike states, and alike states have the same STATUS and RESULT. -/
theorem inlineLeftoversAreUnobservable : Obligations.InlineLeftoversAreUnobservable := by
  intro s s' t hs h
  obtain ⟨t', ht', halike⟩ := step_alike hs h
  exact ⟨t', ht', halike.status, halike.result, halike⟩

end Sys2Proof.Machine
end

section
/-!
The word storage of the handles (20_memory.md): the frame of a command, the words a magnitude spells, the growth step and its requests, and the byte order that
only a bus adapter has.
-/

namespace Sys2Proof.Machine

variable {s t u t' u' : State} {i : Index} {n : Nat}

/-! ## The frame of a command (R57, R72) -/

/-- Settles O18, by the frame of `exec`: the words of a handle are read from its record, and the frame keeps every record but the destination's. -/
theorem commandTouchesOnlyItsDestination : Obligations.CommandTouchesOnlyItsDestination := by
  intro i s t h
  have hframe := exec_keepsOutside h
  refine ⟨hframe, fun j k hj => ?_⟩
  obtain ⟨-, -, -, -, -, -, hothers⟩ := hframe
  rw [hothers j hj]

/-! ## The words of a magnitude (R51) -/

/-- The lowest `n` words of a number spell what it is modulo `2 ^ (32 * n)`. -/
theorem sum_wordAt (x n : Nat) : ∑ k ∈ Finset.range n, (wordAt x k).toNat * 2 ^ (32 * k) = x % 2 ^ (32 * n) := by
  induction n with
  | zero => simp [Nat.mod_one]
  | succ n ih =>
    calc ∑ k ∈ Finset.range (n + 1), (wordAt x k).toNat * 2 ^ (32 * k)
        = x % 2 ^ (32 * n) + 2 ^ (32 * n) * (x / 2 ^ (32 * n) % 2 ^ 32) := by
          rw [Finset.sum_range_succ, ih, wordAt_toNat, Nat.mul_comm (_ % _)]
      _ = x % 2 ^ (32 * (n + 1)) := by rw [← Nat.mod_mul, ← Nat.pow_add, Nat.mul_succ]

/-- Settles O59: the sum of `cap` words is the magnitude modulo `2 ^ (32 * cap)`, and a well-formed magnitude is below that. -/
theorem magnitudeIsTheSumOfItsWords : Obligations.MagnitudeIsTheSumOfItsWords :=
  fun _ h hw => ((sum_wordAt h.mag h.cap).trans (Nat.mod_eq_of_lt hw.bound)).symm

/-! ## The growth step (R60, R61, R63, R64, R65) -/

theorem State.grow_of_covered (hcap : wordsFor n ≤ (s.handle i).cap) : s.grow i n = .ok s :=
  if_pos hcap

/-- Settles O31: the growth step looks at the capacity first. -/
theorem coveredGrowthIsImmediate : Obligations.CoveredGrowthIsImmediate :=
  fun _ _ _ hcap => State.grow_of_covered hcap

/-- Settles O28: a growth is met exactly when it can be, and off the fast path only a granted request meets it. -/
theorem requestIsGrantedExactlyWhen : Obligations.RequestIsGrantedExactlyWhen :=
  fun _ _ _ hcap => State.grow_ok_iff.trans (or_iff_right hcap.not_ge)

/-- Settles O30: a failed growth ends in the state it began in, or has used one free value. -/
theorem failedGrowthChangesNothing : Obligations.FailedGrowthChangesNothing := by
  intro s t i n hg
  rcases (State.grow_oom hg).1 with rfl | rfl
  · rfl
  · rfl

/-- Settles O29: off the fast path a met growth installs the rounded buffer, whose record and whose FREE are known; value, invariant and frame are kept by every
met growth. -/
theorem growthInstallsARoundedBuffer : Obligations.GrowthInstallsARoundedBuffer := by
  intro s i n hs hi hinit hcap hcan
  have hindex := hs.index hi
  obtain ⟨t, hg⟩ := State.grow_ok_iff.2 hcan
  obtain ⟨hframe, hstatus, hresult⟩ := State.grow_frame hg
  obtain ⟨hmag, hmsb, hneg, hindet⟩ := State.grow_value hindex hg
  have hinv := hs.grow hi (State.initialized_iff.1 hinit) hg
  obtain ⟨hkind, hgrown, hfree⟩ : (t.handle i).kind = .heap ∧ (t.handle i).cap = growWords s.cfg n ∧
      t.free.toNat + growWords s.cfg n = s.free.toNat + (s.handle i).heapWords := by
    simpa only [GrewTo, if_neg hcap.not_ge] using State.grewTo_of_grow hs hi hg
  obtain ⟨-, hfit, -⟩ := hcan.resolve_left hcap.not_ge
  rw [← hgrown] at hfree hfit
  exact ⟨t, hg, hkind, hgrown, hmag, hmsb, hneg, hindet, hfree, hfit, hinv, hframe, hstatus, hresult⟩

/-- Settles O32: a met growth to `n` bits leaves room for them, so a growth to no more bits is on the fast path. -/
theorem repeatedGrowthChangesNothing : Obligations.RepeatedGrowthChangesNothing := by
  intro s t i n m hs hi hg hm
  have hroom := State.grow_room hs.legal.quantum_pos (hs.index hi) hg
  exact State.grow_of_covered ((wordsFor_le_iff _ _).2 (hm.trans hroom))

/-! ## The byte order of a bus adapter (R52)

No operation reads `busByteOrder`, so each commutes with `State.withBus`; where an operation takes no branch the two sides are the same term. -/

/-- A growth that ended in a state behind another bus adapter. -/
def Growth.withBus (o : Option ByteOrder) : Growth → Growth
  | .ok s => .ok (s.withBus o)
  | .oom s => .oom (s.withBus o)

/-- A check that comes out the same commutes where both its branches do. -/
theorem State.ite_withBus {o : Option ByteOrder} {p : Prop} [Decidable p] (ht : t' = t.withBus o) (hu : u' = u.withBus o) :
    (if p then t' else u') = (if p then t else u).withBus o := by
  rw [ht, hu, apply_ite (State.withBus · o)]

section
variable (s : State) (o : Option ByteOrder) (i : Index) (n m : Nat) (neg : Bool)

@[simp] theorem State.handle_withBus : (s.withBus o).handle i = s.handle i := rfl

@[simp] theorem State.fetch_withBus : (s.withBus o).fetch = s.fetch := rfl

theorem State.grow_withBus : (s.withBus o).grow i n = (s.grow i n).withBus o := by
  unfold State.grow
  rw [apply_ite (Growth.withBus o), apply_ite (Growth.withBus o), apply_ite (Growth.withBus o)]
  rfl

theorem State.growCommand_withBus : (s.withBus o).growCommand i n = (s.growCommand i n).withBus o := by
  unfold State.growCommand
  rw [State.grow_withBus]
  cases s.grow i n with
  | ok t => rfl
  | oom t => rfl

theorem State.growWrite_withBus : (s.withBus o).growWrite i n m neg = (s.growWrite i n m neg).withBus o := by
  unfold State.growWrite
  rw [State.grow_withBus]
  cases s.grow i n with
  | ok t => rfl
  | oom t => rfl

theorem State.signedSum_withBus (x y : Operand) : (s.withBus o).signedSum i x y = (s.signedSum i x y).withBus o :=
  State.ite_withBus (s.growWrite_withBus o i _ _ _) (s.growWrite_withBus o i _ _ _)

/-- Every command has the same next state behind another bus adapter, up to the adapter. -/
theorem exec_withBus (j : Instr) : ∃ t t', exec j s = .next t ∧ exec j (s.withBus o) = .next t' ∧ t' = t.withBus o := by
  cases j with
  | init d => exact ⟨_, _, rfl, rfl, State.ite_withBus rfl (State.ite_withBus rfl rfl)⟩
  | destroy d => exact ⟨_, _, rfl, rfl, State.ite_withBus rfl rfl⟩
  | grow d ext =>
    exact ⟨_, _, rfl, rfl, State.ite_withBus rfl (State.ite_withBus ((s.setHandle d (Handle.fresh s.cfg)).growCommand_withBus o d _)
      (State.ite_withBus rfl (s.growCommand_withBus o d _)))⟩
  | zero d => exact ⟨_, _, rfl, rfl, State.ite_withBus rfl (State.ite_withBus rfl rfl)⟩
  | seti d ext => exact ⟨_, _, rfl, rfl, State.ite_withBus rfl (State.ite_withBus rfl rfl)⟩
  | copy d a =>
    refine ⟨_, _, rfl, rfl, State.ite_withBus rfl (State.ite_withBus rfl (State.ite_withBus rfl (State.ite_withBus rfl
      (State.ite_withBus rfl ?_))))⟩
    rw [State.grow_withBus, State.handle_withBus]
    cases s.grow d (s.handle a).msb.toNat with
    | ok t => rfl
    | oom t => rfl
  | add d a b => exact ⟨_, _, rfl, rfl, State.ite_withBus rfl (s.signedSum_withBus o d _ _)⟩
  | sub d a b => exact ⟨_, _, rfl, rfl, State.ite_withBus rfl (s.signedSum_withBus o d _ _)⟩
  | addabs d a b => exact ⟨_, _, rfl, rfl, State.ite_withBus rfl (s.growWrite_withBus o d _ _ _)⟩
  | subabs d a b => exact ⟨_, _, rfl, rfl, State.ite_withBus rfl (s.growWrite_withBus o d _ _ _)⟩
  | incabs d =>
    refine ⟨_, _, rfl, rfl, State.ite_withBus rfl (State.ite_withBus rfl (State.ite_withBus rfl ?_))⟩
    rw [State.grow_withBus, State.handle_withBus]
    cases s.grow d ((s.handle d).msb.toNat + 1) with
    | ok t => rfl
    | oom t => rfl
  | cmp a b => exact ⟨_, _, rfl, rfl, State.ite_withBus rfl rfl⟩
  | cmpabs a b => exact ⟨_, _, rfl, rfl, State.ite_withBus rfl rfl⟩
  | qmsb a => exact ⟨_, _, rfl, rfl, State.ite_withBus rfl rfl⟩
  | qneg a => exact ⟨_, _, rfl, rfl, State.ite_withBus rfl rfl⟩
  | qcap a => exact ⟨_, _, rfl, rfl, State.ite_withBus rfl rfl⟩
  | qword a ext => exact ⟨_, _, rfl, rfl, State.ite_withBus rfl (State.ite_withBus rfl rfl)⟩
  | qstate a => exact ⟨_, _, rfl, rfl, State.ite_withBus rfl rfl⟩
  | qfree => exact ⟨_, _, rfl, rfl, rfl⟩

end

/-- Settles O27, by the cases of a step: the bus changes neither what is fetched nor what is decoded, and every command commutes with it. -/
theorem busByteOrderChangesNoStep : Obligations.BusByteOrderChangesNoStep := by
  intro s t o h
  obtain ⟨hl, ⟨hr, rfl⟩ | ⟨hr, hcases⟩⟩ := step_cases h
  · exact step_of_reset (s := s.withBus o) hl hr
  rw [step_of_fetch (s := s.withBus o) hl hr, State.fetch_withBus]
  rcases hcases with ⟨hf, rfl⟩ | ⟨w, hf, rfl⟩ | ⟨ws, i, rest, u, hf, hd, he, rfl⟩ | ⟨ws, e, hf, hd, rfl⟩
  · rw [hf]
    rfl
  · rw [hf]
    rfl
  · obtain ⟨v, v', hv, hv', rfl⟩ := exec_withBus s o i
    cases hv.symm.trans he
    simp only [hf, hd, hv']
    rfl
  · simp only [hf, hd]
    rfl

end Sys2Proof.Machine
end

section
/-!
The decoder and the encoder against the opcode map and the opcode table: a command is what its opcode builds from a command word and an extension
word, its words are those two or the first of them, and a row of the table matches a command word exactly when the row's opcode may spell it.
-/

namespace Sys2Proof

variable {op : BitVec 8} {w ext : Word} {ws rest : List Word} {o : Opcode} {i : Instr} {r : TableRow}

/-! ## The opcode map and the length of a command (30_encoding.md R80, R86, R88, R89) -/

theorem ofField_eq_some_iff : Opcode.ofField op = some o ↔ op = o.value :=
  ⟨value_of_ofField op, fun h => h ▸ ofField_value o⟩

/-- The values the opcode map leaves out are those of 30_encoding.md R88: as numbers, they fill the gaps between the defined opcodes. -/
theorem ofField_eq_none_iff_reservedOp : Opcode.ofField op = none ↔ Machine.reservedOp op = true := by
  have hnone : Opcode.ofField op = none ↔ ∀ o ∈ Opcode.all, o.value.toNat ≠ op.toNat := by
    simp [Opcode.ofField, BitVec.toNat_inj]
  rw [hnone]
  simp only [Opcode.all, List.forall_mem_cons, Opcode.value, BitVec.reduceToNat, List.not_mem_nil, false_implies, implies_true, and_true,
    Machine.reservedOp, Bool.or_eq_true, Bool.and_eq_true, decide_eq_true_eq]
  omega

theorem commandLength_eq_ite_ofField (w : Word) : commandLength w =
    if Opcode.ofField (opField w) = some .grow ∨ Opcode.ofField (opField w) = some .seti ∨ Opcode.ofField (opField w) = some .qword
    then 2 else 1 := by
  simp only [ofField_eq_some_iff]
  rfl

theorem commandLength_of_ofField (ho : Opcode.ofField (opField w) = some o) :
    commandLength w = if o.format.usesExt then 2 else 1 := by
  rw [commandLength_eq_ite_ofField, ho]
  cases o <;> rfl

/-! ## The words an opcode may spell -/

/-- The words of a command of opcode `o`: its command word, and the extension word where the format has one (30_encoding.md R83). -/
def Opcode.words (o : Opcode) (w ext : Word) : List Word :=
  if o.format.usesExt then [w, ext] else [w]

/-- A command without an extension word is built from its command word alone. -/
theorem Opcode.build_congr_ext (h : o.format.usesExt = false) (w ext ext' : Word) : o.build w ext = o.build w ext' := by
  cases o with
  | grow | seti | qword => cases h
  | _ => rfl

/-- A field as the encoder writes it: zero where the format does not use it (30_encoding.md R87). -/
def usedField (used : Bool) (x : Index) : Index :=
  if used then x else 0

theorem usedField_eq_self {used : Bool} {x : Index} (h : (used || x == 0) = true) : usedField used x = x := by
  cases used with
  | true => rfl
  | false => exact (beq_iff_eq.1 h).symm

theorem encode_build_eq_words (o : Opcode) (w ext : Word) : encode (o.build w ext) =
    o.words (commandWord o.value (usedField o.format.usesXD (xdField w)) (usedField o.format.usesXA (xaField w))
      (usedField o.format.usesXB (xbField w))) ext := by
  cases o <;> rfl

/-- The encoder writes the very words a command was built from: the fields its format does not use were zero, so none is lost. -/
theorem encode_build (ho : Opcode.ofField (opField w) = some o) (hz : o.format.reservedZero w = true) (ext : Word) :
    encode (o.build w ext) = o.words w ext := by
  obtain ⟨⟨hd, ha⟩, hb⟩ : (_ ∧ _) ∧ _ := by simpa only [Format.reservedZero, Bool.and_eq_true] using hz
  rw [encode_build_eq_words, usedField_eq_self hd, usedField_eq_self ha, usedField_eq_self hb, ← value_of_ofField _ ho,
    commandWord_fields]

/-- A command is built from its own words. -/
theorem build_of_encode (h : encode i = w :: ws) : i.opcode.build w (ws.headD 0) = i := by
  cases i <;> cases h <;> simp [Instr.opcode, Opcode.build]

/-- The words of every command have the form of its opcode's format. -/
theorem encode_form (i : Instr) : Laws.Encoded.Statement i := by
  cases i with
  | init d => exact Laws.Encoded.init d
  | destroy d => exact Laws.Encoded.destroy d
  | grow d ext => exact Laws.Encoded.grow d ext
  | zero d => exact Laws.Encoded.zero d
  | seti d ext => exact Laws.Encoded.seti d ext
  | copy d a => exact Laws.Encoded.copy d a
  | add d a b => exact Laws.Encoded.add d a b
  | sub d a b => exact Laws.Encoded.sub d a b
  | addabs d a b => exact Laws.Encoded.addabs d a b
  | subabs d a b => exact Laws.Encoded.subabs d a b
  | incabs d => exact Laws.Encoded.incabs d
  | cmp a b => exact Laws.Encoded.cmp a b
  | cmpabs a b => exact Laws.Encoded.cmpabs a b
  | qmsb a => exact Laws.Encoded.qmsb a
  | qneg a => exact Laws.Encoded.qneg a
  | qcap a => exact Laws.Encoded.qcap a
  | qword a ext => exact Laws.Encoded.qword a ext
  | qstate a => exact Laws.Encoded.qstate a
  | qfree => exact Laws.Encoded.qfree

/-- Every command is built by its opcode from a command word that its opcode may spell. -/
theorem exists_build (i : Instr) : ∃ w ext, Opcode.ofField (opField w) = some i.opcode ∧
    i.opcode.format.reservedZero w = true ∧ i.opcode.build w ext = i := by
  obtain ⟨w, ws, henc, hop, hz, -⟩ := encode_form i
  exact ⟨w, ws.headD 0, ofField_eq_some_iff.2 hop, hz, build_of_encode henc⟩

/-! ## What the decoder reads -/

theorem decodeCommand_ok_iff : decodeCommand w ext = .ok i ↔
    ∃ o, Opcode.ofField (opField w) = some o ∧ o.format.reservedZero w = true ∧ o.build w ext = i := by
  cases ho : Opcode.ofField (opField w) with
  | none => simp [decodeCommand, ho]
  | some o => cases hz : o.format.reservedZero w <;> simp [decodeCommand, ho, hz]

/-- The decoder reads from the words an opcode may spell the command it builds, and leaves the words after them. -/
theorem decode_words_append (ho : Opcode.ofField (opField w) = some o) (hz : o.format.reservedZero w = true) (ext : Word)
    (rest : List Word) : decode (o.words w ext ++ rest) = .ok (o.build w ext, rest) := by
  have hlen := commandLength_of_ofField ho
  have hok (x : Word) : decodeCommand w x = .ok (o.build w x) := decodeCommand_ok_iff.2 ⟨o, ho, hz, rfl⟩
  cases hext : o.format.usesExt with
  | true => simp [Opcode.words, decode, hok, hlen, hext]
  | false => simp [Opcode.words, decode, hok, hlen, hext, Opcode.build_congr_ext hext w ext 0]

/-- A list of words that decodes begins with the words an opcode may spell. -/
theorem exists_words_of_decode (h : decode ws = .ok (i, rest)) : ∃ o w ext, Opcode.ofField (opField w) = some o ∧
    o.format.reservedZero w = true ∧ o.build w ext = i ∧ ws = o.words w ext ++ rest := by
  cases ws with
  | nil => cases h
  | cons w tail =>
    simp only [decode] at h
    split at h
    next hlen =>
      split at h
      next j hd =>
        cases h
        obtain ⟨o, ho, hz, hb⟩ := decodeCommand_ok_iff.1 hd
        have hext : o.format.usesExt = false := by simpa [hlen] using commandLength_of_ofField ho
        exact ⟨o, w, 0, ho, hz, hb, by simp [Opcode.words, hext]⟩
      next => cases h
    next hlen =>
      split at h
      next => cases h
      next ext tail =>
        split at h
        next j hd =>
          cases h
          obtain ⟨o, ho, hz, hb⟩ := decodeCommand_ok_iff.1 hd
          have hext : o.format.usesExt = true := by simpa [commandLength_of_ofField ho] using hlen
          exact ⟨o, w, ext, ho, hz, hb, by simp [Opcode.words, hext]⟩
        next => cases h

/-! ## The rows of the opcode table (30_encoding.md R90) -/

/-- The opcode of each row: its bits, its mask and its length are those of the opcode's value and format. -/
theorem exists_opcode_of_row : ∀ r ∈ opcodeTable, ∃ o ∈ Opcode.all,
    r.bits = commandWord o.value 0 0 0 ∧ r.mask = o.format.mask ∧ r.words = if o.format.usesExt then 2 else 1 := by
  decide

theorem eq_of_bits_eq {r' : TableRow} (hr : r ∈ opcodeTable) (hr' : r' ∈ opcodeTable) (h : r.bits = r'.bits) : r = r' :=
  List.inj_on_of_nodup_map (by decide : (opcodeTable.map TableRow.bits).Nodup) hr hr' h

theorem eq_zero_of_and_fieldMask {used : Bool} {x : Index} (h : x &&& fieldMask used = 0) : (used || x == 0) = true := by
  cases used with
  | true => rfl
  | false => exact beq_iff_eq.2 (BitVec.and_allOnes.symm.trans h)

/-- The converse of `and_formatMask`: the mask keeps the opcode and every unused field, so the match tells each of them. -/
theorem fields_of_and_formatMask {f : Format} (h : w &&& f.mask = commandWord op 0 0 0) :
    opField w = op ∧ f.reservedZero w = true := by
  rw [← commandWord_fields w, Format.mask, commandWord_and] at h
  have hop := congrArg opField h
  have hd := congrArg xdField h
  have ha := congrArg xaField h
  have hb := congrArg xbField h
  simp only [opField_commandWord, xdField_commandWord, xaField_commandWord, xbField_commandWord] at hop hd ha hb
  refine ⟨BitVec.and_allOnes.symm.trans hop, ?_⟩
  simp only [Format.reservedZero, Bool.and_eq_true]
  exact ⟨⟨eq_zero_of_and_fieldMask hd, eq_zero_of_and_fieldMask ha⟩, eq_zero_of_and_fieldMask hb⟩

/-- A row that matches a command word is the row of an opcode that may spell it. -/
theorem exists_opcode_of_matchesWord (hr : r ∈ opcodeTable) (h : r.matchesWord w = true) :
    ∃ o, Opcode.ofField (opField w) = some o ∧ o.format.reservedZero w = true ∧
      r.bits = commandWord (opField w) 0 0 0 ∧ r.words = commandLength w := by
  obtain ⟨o, -, hbits, hmask, hwords⟩ := exists_opcode_of_row r hr
  obtain ⟨hop, hz⟩ : opField w = o.value ∧ o.format.reservedZero w = true :=
    fields_of_and_formatMask (by rw [← hmask, ← hbits]; exact beq_iff_eq.1 h)
  have ho := ofField_eq_some_iff.2 hop
  exact ⟨o, ho, hz, hop ▸ hbits, hwords.trans (commandLength_of_ofField ho).symm⟩

theorem eq_of_matchesWord {r' : TableRow} (hr : r ∈ opcodeTable) (hr' : r' ∈ opcodeTable) (h : r.matchesWord w = true)
    (h' : r'.matchesWord w = true) : r = r' := by
  obtain ⟨o, -, -, hbits, -⟩ := exists_opcode_of_matchesWord hr h
  obtain ⟨o', -, -, hbits', -⟩ := exists_opcode_of_matchesWord hr' h'
  exact eq_of_bits_eq hr hr' (hbits.trans hbits'.symm)

theorem exists_decodeCommand_of_matchesWord (hr : r ∈ opcodeTable) (h : r.matchesWord w = true) (ext : Word) :
    ∃ i, decodeCommand w ext = .ok i := by
  obtain ⟨o, ho, hz, -, -⟩ := exists_opcode_of_matchesWord hr h
  exact ⟨_, decodeCommand_ok_iff.2 ⟨o, ho, hz, rfl⟩⟩

theorem no_row_of_decodeCommand_error {e : DecodeError} (h : decodeCommand w ext = .error e) :
    ∀ r ∈ opcodeTable, r.matchesWord w = false := by
  intro r hr
  by_contra hm
  obtain ⟨i, hi⟩ := exists_decodeCommand_of_matchesWord hr (Bool.eq_true_of_not_eq_false hm) ext
  cases h.symm.trans hi

theorem no_row_of_ofField_eq_none (h : Opcode.ofField (opField w) = none) : ∀ r ∈ opcodeTable, r.matchesWord w = false :=
  no_row_of_decodeCommand_error (ext := 0) (e := .reservedOpcode) (by simp only [decodeCommand, h])

/-! ## The report of an illegal command word (60_exceptions.md R211, R218) -/

/-- An illegal command word sets STICKY, whatever it was. -/
theorem illegal_respond (s : Machine.State) (n : Nat) : s.illegal.respond n =
    { s with status := Machine.statusWord .illegalCommand true, result := 0, port := .responding, pc := s.pc + n } := by
  simp [Machine.State.illegal, Machine.State.raise, Machine.State.finish, Machine.State.respond]

/-! ## The statements -/

/-- Settles O11: a command is built by its opcode, which decodes and encodes alike from the words it may spell. -/
theorem decodeOfEncode : Obligations.DecodeOfEncode := by
  intro i rest
  obtain ⟨w, ext, ho, hz, hb⟩ := exists_build i
  calc decode (encode i ++ rest)
      = decode (i.opcode.words w ext ++ rest) := by rw [← encode_build ho hz, hb]
    _ = .ok (i.opcode.build w ext, rest) := decode_words_append ho hz ext rest
    _ = .ok (i, rest) := by rw [hb]

/-- Settles O12: a list that decodes begins with words an opcode may spell, and the encoder writes those back. -/
theorem encodeOfDecode : Obligations.EncodeOfDecode := by
  intro ws i rest h
  obtain ⟨o, w, ext, ho, hz, rfl, hws⟩ := exists_words_of_decode h
  rw [hws, encode_build ho hz]

/-- Settles O13: each row of the table belongs to one opcode, and matches the command words this opcode may spell. -/
theorem exactlyOneTableRowMatches : Obligations.ExactlyOneTableRowMatches := by
  refine fun w ext => ⟨⟨fun ⟨i, hi⟩ => ?_, fun ⟨r, ⟨hr, hm⟩, _⟩ => exists_decodeCommand_of_matchesWord hr hm ext⟩,
    ⟨fun ⟨e, he⟩ => no_row_of_decodeCommand_error he, fun h => decodeCommand_of_no_row h ext⟩, fun r hr hm => ?_⟩
  · obtain ⟨r, hr, hm⟩ := exists_row_of_decodeCommand hi
    exact ⟨r, ⟨hr, hm⟩, fun r' ⟨hr', hm'⟩ => eq_of_matchesWord hr' hr hm' hm⟩
  · obtain ⟨o, -, -, -, hwords⟩ := exists_opcode_of_matchesWord hr hm
    exact hwords

/-- Settles O10: a reserved opcode has no row in the table, so the step only reports it, and it is none of the three of two words. -/
theorem reservedOpcodesAreIllegal : Obligations.ReservedOpcodesAreIllegal := by
  refine fun w => ⟨ofField_eq_none_iff_reservedOp, fun hres => ?_⟩
  have hnone : Opcode.ofField (opField w) = none := ofField_eq_none_iff_reservedOp.2 hres
  have hlen : commandLength w = 1 := by simp [commandLength_eq_ite_ofField, hnone]
  refine ⟨hlen, fun s hl hr hw => ?_⟩
  rw [Machine.step_of_no_row hl hr hw (no_row_of_ofField_eq_none hnone) (by simp [hlen]), hlen, illegal_respond]

/-- Settles O15: the three opcodes of two words are those whose format has an extension word, and the encoder writes as many words. -/
theorem lengthIsDecidedByTheOpcode : Obligations.LengthIsDecidedByTheOpcode := by
  refine ⟨commandLength_eq_ite_ofField, fun i w ws h => ?_⟩
  obtain ⟨w', ext, henc, hop, -, hlen⟩ := encode_form i
  cases h.symm.trans henc
  rw [henc, List.length_cons, hlen, commandLength_of_ofField (ofField_eq_some_iff.2 hop)]
  split <;> rfl

/-- Settles O14: the decoder and the encoder are run on each example. -/
theorem encodingExamples : Obligations.EncodingExamples := by
  unfold Obligations.EncodingExamples
  decide

end Sys2Proof
end

section
/-!
The lifecycle and storage commands (40_lifecycle.md): what each answers where its checks pass, as a record written in the storage a handle has, a release, or a
growth step and what follows it.
-/

namespace Sys2Proof.Machine

variable {s t u : State} {d a : Index} {h src : Handle} {n : Nat} {cfg : Config}

/-! ## Checks that pass, and checks that refuse (60_exceptions.md R212, R213) -/

theorem State.badIndex_one (hd : s.Names d) : s.badIndex [d] = false :=
  (State.badIndex_eq_false_iff _).2 (by simpa using hd)

theorem State.badIndex_two (hd : s.Names d) (ha : s.Names a) : s.badIndex [d, a] = false :=
  (State.badIndex_eq_false_iff _).2 (by simpa using ⟨hd, ha⟩)

/-- The checks of a command that reads one handle pass for that handle. -/
theorem State.Ready.source (hready : s.Ready d [a]) : s.Names a ∧ s.readable a = true := by
  obtain ⟨-, -, hsrc⟩ := hready
  exact hsrc a (by simp)

theorem State.initialized_eq_false_iff : s.initialized d = false ↔ (s.handle d).kind = .uninit := by
  simp [State.initialized]

theorem State.not_ok_of_refused (s : State) : ¬ EndedWith (s.raise .invalidArgument) .ok := by
  simp [EndedWith, Code.value]

/-- A command that a check may refuse and that ends with OK has passed it. -/
theorem State.pass_of_ok {p : Prop} [Decidable p] (hok : EndedWith (if p then s.raise .invalidArgument else t) .ok) :
    ¬p ∧ EndedWith t .ok := by
  split at hok
  · exact absurd hok s.not_ok_of_refused
  · exact ⟨‹_›, hok⟩

/-! ## A record write that ends a command -/

/-- `t` is `s` after a command that ended with OK and wrote the record `h` in handle `d`: FREE is kept and the oracle was not asked. -/
def State.Wrote (s t : State) (d : Index) (h : Handle) : Prop :=
  Answered s t .ok 0 ∧ t.handle d = h ∧ t.free = s.free ∧ t.turn = s.turn ∧ KeepsOutside s t (some d)

theorem State.wrote_finish (hi : d.toNat < s.handles.length) (h : Handle) : s.Wrote ((s.setHandle d h).finish .ok 0) d h :=
  ⟨⟨rfl, rfl⟩, State.handle_setHandle_same s d h hi, rfl, rfl, .written s d h⟩

/-! ## INIT and DESTROY (R100, R101, R103) -/

theorem exec_init (hd : s.Names d) : exec (.init d) s =
    .next (if s.initialized d then s.raise .invalidArgument else (s.setHandle d (Handle.fresh s.cfg)).finish .ok 0) := by
  simp only [exec, execInit, State.badIndex_one hd, Bool.false_eq_true, if_false]

theorem exec_destroy (hd : s.Names d) : exec (.destroy d) s =
    .next (((s.setHandle d (s.handle d).destroyed).setFree (s.free + BitVec.ofNat 32 (s.handle d).heapWords)).finish .ok 0) := by
  simp only [exec, execDestroy, State.badIndex_one hd, Bool.false_eq_true, if_false]

/-- FREE gains exactly the heap words of a released handle, without wrapping (10_state.md R32). -/
theorem free_after_destroy (hs : s.Inv) (hd : s.Names d) :
    (s.free + BitVec.ofNat 32 (s.handle d).heapWords).toNat = s.free.toNat + (s.handle d).heapWords := by
  have htotal := heapWords_le_total (hs.index hd)
  have hpool := hs.pool
  have hmax := hs.legal.pool_le
  rw [BitVec.toNat_add, BitVec.toNat_ofNat]
  omega

/-- Settles O33: INIT writes the fresh record where its check passes. -/
theorem initGivesTheCanonicalZero : Obligations.InitGivesTheCanonicalZero := by
  refine fun s d hs hd => ⟨fun hk => ?_, fun hk => ?_⟩
  · obtain ⟨hans, hrec, hfree, -, hkeep⟩ := State.wrote_finish (hs.index hd) (Handle.fresh s.cfg)
    refine ⟨_, by rw [exec_init hd, State.initialized_eq_false_iff.2 hk]; rfl, hans, ?_⟩
    rw [hrec]
    exact ⟨rfl, rfl, rfl, rfl, rfl, rfl, hfree, hkeep⟩
  · rw [exec_init hd, if_pos (State.initialized_iff.2 hk)]

/-- Settles O34: DESTROY writes the destroyed record, and FREE gains the heap words the handle held. -/
theorem destroyReleasesTheStorage : Obligations.DestroyReleasesTheStorage := by
  intro s d hs hd
  obtain ⟨hans, hrec, -, -, hkeep⟩ := State.wrote_finish (hs.index hd) (s.handle d).destroyed
  refine ⟨_, exec_destroy hd, hans, ?_⟩
  simp only [State.handle_finish, State.handle_setFree] at hrec ⊢
  rw [hrec]
  exact ⟨rfl, rfl, rfl, rfl, rfl, rfl, fun hk => if_neg hk, free_after_destroy hs hd, hkeep.setFree _⟩

/-! ## ZERO and SETI (R111, R112, R116, R117) -/

theorem exec_zero (hd : s.Names d) (hi : s.initialized d = true) :
    exec (.zero d) s = .next ((s.setHandle d (s.handle d).cleared).finish .ok 0) := by
  simp only [exec, execZero, State.badIndex_one hd, hi, Bool.not_true, Bool.false_eq_true, if_false]

theorem exec_seti (hd : s.Names d) (hi : s.initialized d = true) (ext : Word) :
    exec (.seti d ext) s = .next (s.writeResult d (extSigned ext).natAbs (decide (extSigned ext < 0))) := by
  simp only [exec, execSeti, State.badIndex_one hd, hi, Bool.not_true, Bool.false_eq_true, if_false]

/-- The signed reading of an extension word is its two's complement value (30_encoding.md R84). -/
theorem extSigned_eq_toInt (ext : Word) : extSigned ext = ext.toInt := by
  rw [extSigned, sint32, BitVec.toInt]
  split <;> split <;> omega

/-- The record that holds `|z|` and a sign exactly where `z` is negative has the value `z`. -/
theorem Handle.val_store (h : Handle) (z : Int) : (h.store z.natAbs (decide (z < 0))).val = z := by
  by_cases hz : z < 0
  · simp [Handle.val, Handle.store, hz, hz.ne, abs_of_neg hz]
  · simp [Handle.val, Handle.store, hz, abs_of_nonneg (not_lt.1 hz)]

theorem Handle.neg_store_iff (h : Handle) (z : Int) : (h.store z.natAbs (decide (z < 0))).neg = true ↔ z < 0 := by
  simp only [Handle.store, Bool.and_eq_true, decide_eq_true_eq]
  omega

/-- Settles O37: ZERO writes the cleared record. -/
theorem zeroKeepsTheStorage : Obligations.ZeroKeepsTheStorage := by
  intro s d hs hd hi
  obtain ⟨hans, hrec, hfree, -, hkeep⟩ := State.wrote_finish (hs.index hd) (s.handle d).cleared
  exact ⟨_, exec_zero hd hi, hans, hrec, hfree, hkeep⟩

/-- Settles O38: SETI stores the absolute value and the sign of its extension word; the bit length is exact because the record written is well formed. -/
theorem setiGivesTheSignedValue : Obligations.SetiGivesTheSignedValue := by
  intro s d ext hs hd hi
  have hexec := exec_seti hd hi ext
  have hwf := (hs.setImmediate (neg := decide (extSigned ext < 0)) hd (State.initialized_iff.1 hi) ext).handle hd
  rw [State.handle_writeResult (hs.index hd)] at hwf
  rw [extSigned_eq_toInt] at hexec hwf
  obtain ⟨hans, hrec, hfree, -, hkeep⟩ :=
    State.wrote_finish (hs.index hd) ((s.handle d).store ext.toInt.natAbs (decide (ext.toInt < 0)))
  refine ⟨_, hexec, hans, ?_⟩
  rw [State.handle_writeResult (hs.index hd)]
  exact ⟨Handle.val_store _ _, rfl, hwf.length, Handle.neg_store_iff _ _, rfl, rfl, rfl, hfree, hkeep⟩

/-! ## The growth step and what follows it (20_memory.md R59, R61, R63) -/

/-- A growth that cannot be met fails. -/
theorem State.grow_oom_of_not_canGrow (hcan : ¬ s.CanGrow d n) : ∃ t, s.grow d n = .oom t := by
  cases hg : s.grow d n with
  | ok t => exact absurd (State.grow_ok_iff.1 ⟨t, hg⟩) hcan
  | oom t => exact ⟨t, rfl⟩

/-- A command that ends because its growth failed leaves the handle and FREE (20_memory.md R63). -/
theorem State.raise_of_grow_oom (hg : s.grow d n = .oom t) :
    Answered s (t.raise .outOfMemory) .outOfMemory 0 ∧ (t.raise .outOfMemory).handle d = s.handle d ∧
      (t.raise .outOfMemory).free = s.free ∧ KeepsOutside s (t.raise .outOfMemory) (some d) := by
  rcases (State.grow_oom hg).1 with rfl | rfl
  · exact ⟨⟨rfl, rfl⟩, rfl, rfl, .raise (.refl _ _) _⟩
  · exact ⟨⟨rfl, rfl⟩, rfl, rfl, .raise (.nextTurn (.refl _ _)) _⟩

/-- What a met growth leaves of kind, capacity and FREE is still there after a write in the storage the handle then has. -/
theorem GrewTo.of_storage (hgrew : GrewTo s t d n) (hsame : (t.handle d).SameStorage (u.handle d)) (hfree : u.free = t.free) :
    GrewTo s u d n := by
  obtain ⟨hkind, hcap⟩ := hsame
  unfold GrewTo
  rw [hkind, hcap, hfree]
  exact hgrew

/-! ## GROW (R106 to R110) -/

theorem exec_grow (hd : s.Names d) (ext : Word) : exec (.grow d ext) s =
    .next (if !s.initialized d then (s.setHandle d (Handle.fresh s.cfg)).growCommand d ext.toNat
      else if (s.handle d).indet then s.raise .invalidArgument else s.growCommand d ext.toNat) := by
  simp only [exec, execGrow, State.badIndex_one hd, Bool.false_eq_true, if_false]
  rfl

theorem exec_grow_of_initialized (hd : s.Names d) (hk : (s.handle d).kind ≠ .uninit) (ext : Word) : exec (.grow d ext) s =
    .next (if (s.handle d).indet then s.raise .invalidArgument else s.growCommand d ext.toNat) := by
  rw [exec_grow hd, State.initialized_iff.2 hk]
  rfl

theorem exec_grow_of_uninit (hd : s.Names d) (hk : (s.handle d).kind = .uninit) (ext : Word) : exec (.grow d ext) s =
    .next ((s.setHandle d (Handle.fresh s.cfg)).growCommand d ext.toNat) := by
  rw [exec_grow hd, State.initialized_eq_false_iff.2 hk]
  rfl

/-- The growth step of GROW, met: room for the bits asked for, and the value kept (R106, R108). -/
theorem State.growCommand_of_canGrow (hs : s.Inv) (hd : s.Names d) (hcan : s.CanGrow d n) :
    Answered s (s.growCommand d n) .ok 0 ∧ n ≤ 32 * ((s.growCommand d n).handle d).cap ∧ GrewTo s (s.growCommand d n) d n ∧
      ((s.growCommand d n).handle d).mag = (s.handle d).mag ∧ ((s.growCommand d n).handle d).msb = (s.handle d).msb ∧
      ((s.growCommand d n).handle d).neg = (s.handle d).neg ∧ ((s.growCommand d n).handle d).indet = (s.handle d).indet := by
  obtain ⟨t, hg⟩ := State.grow_ok_iff.2 hcan
  have he : s.growCommand d n = t.finish .ok 0 := by rw [State.growCommand, hg]
  obtain ⟨-, hstatus, -⟩ := State.grow_frame hg
  rw [he]
  exact ⟨⟨by rw [State.finish_status, hstatus], rfl⟩, State.grow_room (t := t) hs.legal.quantum_pos (hs.index hd) hg,
    State.grewTo_of_grow (t := t) hs hd hg, State.grow_value (t := t) (hs.index hd) hg⟩

/-- The growth step of GROW, not met (R108). -/
theorem State.growCommand_of_not_canGrow (hcan : ¬ s.CanGrow d n) :
    Answered s (s.growCommand d n) .outOfMemory 0 ∧ (s.growCommand d n).handle d = s.handle d ∧
      (s.growCommand d n).free = s.free ∧ KeepsOutside s (s.growCommand d n) (some d) := by
  obtain ⟨t, hg⟩ := State.grow_oom_of_not_canGrow hcan
  have he : s.growCommand d n = t.raise .outOfMemory := by rw [State.growCommand, hg]
  rw [he]
  exact State.raise_of_grow_oom hg

/-- Settles O35: the checks decide between the growth step, met or not, and a refusal. -/
theorem growMakesRoomAndKeepsTheValue : Obligations.GrowMakesRoomAndKeepsTheValue := by
  intro s d ext hs hd hk
  have hexec := exec_grow_of_initialized hd hk ext
  refine ⟨fun hdet hcan => ?_, fun hdet hcan => ?_, fun hindet => by rw [hexec, if_pos hindet]⟩ <;>
    rw [if_neg (by simp [hdet])] at hexec
  · obtain ⟨hans, hroom, hgrew, hmag, hmsb, hneg, hkept⟩ := State.growCommand_of_canGrow hs hd hcan
    exact ⟨_, hexec, hans, hroom, hgrew, hmag, hmsb, hneg, hkept.trans hdet, .growCommand s d _⟩
  · exact ⟨_, hexec, State.growCommand_of_not_canGrow hcan⟩

/-- Settles O36: GROW of an UNINIT handle is the growth step in the state INIT leaves, whose value is the fresh zero, met or not. -/
theorem growInitializesFirst : Obligations.GrowInitializesFirst := by
  intro s d ext hs hd hk
  have hfresh := State.handle_setHandle_same s d (Handle.fresh s.cfg) (hs.index hd)
  have hkeep := ((KeepsOutside.refl s _).setHandle (Handle.fresh s.cfg)).trans
    (.growCommand (s.setHandle d (Handle.fresh s.cfg)) d ext.toNat)
  refine ⟨fun hcan => ?_, fun hcan => ?_⟩
  · obtain ⟨hans, -, hgrew, hvalue⟩ := State.growCommand_of_canGrow (hs.fresh hd hk) hd hcan
    rw [hfresh] at hvalue
    obtain ⟨hmag, hmsb, hneg, hindet⟩ := hvalue
    exact ⟨_, exec_grow_of_uninit hd hk ext, hans, hgrew, hmag, hmsb, hneg, hindet, hkeep⟩
  · obtain ⟨hans, hrec, hfree, -⟩ := State.growCommand_of_not_canGrow hcan
    refine ⟨_, exec_grow_of_uninit hd hk ext, hans, ?_⟩
    rw [hrec, hfresh]
    exact ⟨rfl, rfl, rfl, rfl, rfl, rfl, hfree, hkeep⟩

/-! ## COPY (R118 to R122) -/

theorem exec_copy_self (ha : s.Names a) : exec (.copy a a) s =
    .next (if !s.readable a then s.raise .invalidArgument else s.finish .ok 0) := by
  simp only [exec, execCopy, State.badIndex_two ha ha, Bool.false_eq_true, if_false, if_true]

/-- The growth step of COPY of a nonzero value, and the end of the command (R118, R121). -/
def State.copyCommand (s : State) (d a : Index) : State :=
  match s.grow d (s.handle a).msb.toNat with
  | .oom t => t.raise .outOfMemory
  | .ok t => (t.setHandle d ((t.handle d).copied (s.handle a))).finish .ok 0

/-- What COPY does where its checks pass. -/
theorem exec_copy (hready : s.Ready d [a]) (hda : d ≠ a) : exec (.copy d a) s =
    .next (if (s.handle a).msb = 0 then (s.setHandle d (s.handle d).cleared).finish .ok 0 else s.copyCommand d a) := by
  obtain ⟨ha, hr⟩ := hready.source
  obtain ⟨hd, hi, -⟩ := hready
  simp only [exec, execCopy, State.badIndex_two hd ha, hi, hr, hda, Bool.not_true, Bool.false_eq_true, if_false]
  rfl

/-- A COPY to another handle that ends with OK has passed its checks. -/
theorem ready_of_exec_copy (hda : d ≠ a) (hexec : exec (.copy d a) s = .next t) (hok : EndedWith t .ok) : s.Ready d [a] := by
  cases hexec
  obtain ⟨hnames, hok⟩ := State.pass_of_ok hok
  obtain ⟨hr, hok⟩ := State.pass_of_ok hok
  rw [if_neg hda] at hok
  obtain ⟨hi, -⟩ := State.pass_of_ok hok
  refine ⟨State.names_of_check hnames d (by simp), by simpa using hi, fun i hmem => ?_⟩
  obtain rfl : i = a := by simpa using hmem
  exact ⟨State.names_of_check hnames i (by simp), by simpa using hr⟩

/-- The cached bit length of a well-formed handle is zero exactly for the value zero (10_state.md R25). -/
theorem Handle.Wf.msb_eq_zero_iff (hw : h.Wf cfg) : h.msb = 0 ↔ h.mag = 0 := by
  rw [← bitlen_eq_zero_iff, ← hw.length, BitVec.toNat_eq]
  rfl

/-- To clear a handle is to copy a zero into it. -/
theorem Handle.Wf.cleared_eq_copied (hw : src.Wf cfg) (hzero : src.mag = 0) (h : Handle) : h.cleared = h.copied src := by
  simp [Handle.cleared, Handle.copied, hzero, hw.msb_eq_zero_iff.2 hzero, hw.sign hzero]

/-- COPY of a zero clears the destination (R119). -/
theorem copy_of_zero (hs : s.Inv) (hready : s.Ready d [a]) (hda : d ≠ a) (hzero : (s.handle a).mag = 0) :
    ∃ t, exec (.copy d a) s = .next t ∧ s.Wrote t d (s.handle d).cleared := by
  obtain ⟨ha, -⟩ := hready.source
  have ⟨hd, _⟩ := hready
  refine ⟨_, ?_, State.wrote_finish (hs.index hd) _⟩
  rw [exec_copy hready hda, if_pos ((hs.handle ha).msb_eq_zero_iff.2 hzero)]

/-- COPY of a nonzero value whose growth is met copies the source's record into the storage the destination then has (R118). -/
theorem copy_of_canGrow (hs : s.Inv) (hready : s.Ready d [a]) (hda : d ≠ a) (hnonzero : (s.handle a).mag ≠ 0)
    (hcan : s.CanGrow d (s.handle a).msb.toNat) :
    ∃ t h, exec (.copy d a) s = .next t ∧ Answered s t .ok 0 ∧ t.handle d = Handle.copied h (s.handle a) ∧
      GrewTo s t d (s.handle a).msb.toNat ∧ KeepsOutside s t (some d) := by
  obtain ⟨ha, -⟩ := hready.source
  have ⟨hd, hi, _⟩ := hready
  obtain ⟨u, hg⟩ := State.grow_ok_iff.2 hcan
  obtain ⟨hkeep, hstatus, -⟩ := State.grow_frame hg
  obtain ⟨hu, hdu, -, -⟩ := hs.grown hd (State.initialized_iff.1 hi) hg
  have hrec := State.handle_setHandle_same u d ((u.handle d).copied (s.handle a)) (hu.index hdu)
  refine ⟨(u.setHandle d ((u.handle d).copied (s.handle a))).finish .ok 0, u.handle d, ?_, ⟨?_, rfl⟩, hrec, ?_,
    (hkeep.setHandle _).finish _ _⟩
  · rw [exec_copy hready hda, if_neg (mt (hs.handle ha).msb_eq_zero_iff.1 hnonzero), State.copyCommand, hg]
  · rw [State.finish_status, State.setHandle_status, hstatus]
  · refine (State.grewTo_of_grow hs hd hg).of_storage ?_ rfl
    rw [State.handle_finish, hrec]
    exact Handle.copied_storage _ _

/-- COPY of a nonzero value whose growth is not met leaves the destination and FREE (R121). -/
theorem copy_of_not_canGrow (hs : s.Inv) (hready : s.Ready d [a]) (hda : d ≠ a) (hnonzero : (s.handle a).mag ≠ 0)
    (hcan : ¬ s.CanGrow d (s.handle a).msb.toNat) :
    ∃ t, exec (.copy d a) s = .next t ∧ Answered s t .outOfMemory 0 ∧ t.handle d = s.handle d ∧ t.free = s.free ∧
      KeepsOutside s t (some d) := by
  obtain ⟨ha, -⟩ := hready.source
  obtain ⟨u, hg⟩ := State.grow_oom_of_not_canGrow hcan
  refine ⟨u.raise .outOfMemory, ?_, State.raise_of_grow_oom hg⟩
  rw [exec_copy hready hda, if_neg (mt (hs.handle ha).msb_eq_zero_iff.1 hnonzero), State.copyCommand, hg]

/-- Where a COPY to another handle ends with OK, the destination's record is the source's in some storage: a zero was copied, or the growth was met. -/
theorem handle_of_exec_copy (hs : s.Inv) (hda : d ≠ a) (hexec : exec (.copy d a) s = .next t) (hok : EndedWith t .ok) :
    ∃ h, t.handle d = Handle.copied h (s.handle a) := by
  have hready := ready_of_exec_copy hda hexec hok
  obtain ⟨ha, -⟩ := hready.source
  by_cases hzero : (s.handle a).mag = 0
  · obtain ⟨u, hu, -, hrec, -⟩ := copy_of_zero hs hready hda hzero
    cases hu.symm.trans hexec
    exact ⟨_, hrec.trans ((hs.handle ha).cleared_eq_copied hzero _)⟩
  by_cases hcan : s.CanGrow d (s.handle a).msb.toNat
  · obtain ⟨u, h, hu, -, hrec, -⟩ := copy_of_canGrow hs hready hda hzero hcan
    cases hu.symm.trans hexec
    exact ⟨h, hrec⟩
  · obtain ⟨u, hu, ⟨hstatus, -⟩, -⟩ := copy_of_not_canGrow hs hready hda hzero hcan
    cases hu.symm.trans hexec
    simp [EndedWith, hstatus, Code.value] at hok

/-- A command leaves the record of every handle but its destination. -/
theorem handle_of_exec_other {i : Instr} (hexec : exec i s = .next t) (hdest : i.dest ≠ some a) : t.handle a = s.handle a := by
  obtain ⟨-, -, -, -, -, -, hothers⟩ := exec_keepsOutside hexec
  exact hothers a hdest

/-- Settles O39: a COPY that ends with OK leaves the source's record in the destination's storage, and no command on the destination writes the source. -/
theorem copyGivesTheSameValue : Obligations.CopyGivesTheSameValue := by
  intro s d a hs hda
  have hother : some d ≠ some a := by simpa using hda
  refine ⟨fun t hexec hok => ?_, fun hready hnonzero hcan => ?_, fun hready => copy_of_not_canGrow hs hready hda⟩
  · obtain ⟨h, hrec⟩ := handle_of_exec_copy hs hda hexec hok
    have hsource : t.handle a = s.handle a := handle_of_exec_other hexec hother
    rw [hrec]
    exact ⟨rfl, rfl, fun _ => rfl, hsource, fun i u hdest hu =>
      (handle_of_exec_other hu (by rwa [hdest])).trans hsource⟩
  · obtain ⟨t, h, hexec, hans, hrec, hgrew, hkeep⟩ := copy_of_canGrow hs hready hda hnonzero hcan
    refine ⟨t, hexec, hans, ?_⟩
    rw [hrec]
    exact ⟨rfl, rfl, rfl, hgrew, hkeep⟩

/-- Settles O40: COPY of a zero writes the cleared record, and COPY onto itself has only the check of its source. -/
theorem copyOfZeroAndOntoItself : Obligations.CopyOfZeroAndOntoItself := by
  refine ⟨fun s d a hs hready hda hzero => copy_of_zero hs hready hda hzero, fun s a ha => ⟨fun hr => ?_, fun hr => ?_⟩⟩ <;>
    rw [exec_copy_self ha, hr] <;> rfl

end Sys2Proof.Machine
end

section
/-!
The arithmetic commands (41_arithmetic.md). ADD, SUB, ADDABS and SUBABS are one computation: the checks, one growth step and one result
write, which differ in the bits asked for and in the value written. INCABS is a record write, or a growth step and a record write.
-/

namespace Sys2Proof.Machine

variable {s t : State} {i : Instr} {d a b : Index} {h : Handle} {n m : Nat} {neg : Bool} {v : Int} {cfg : Config}

/-! ## The ripple computations (R142, R159) -/

/-- The bit above the lowest `32 n` of a sum of two magnitudes of `n` words is the carry out. -/
theorem sum_div_eq_carry {c x y : Nat} (hx : x < c) (hy : y < c) : (x + y) / c = if c ≤ x + y then 1 else 0 := by
  split
  · exact Nat.div_eq_of_lt_le (by omega) (by omega)
  · exact Nat.div_eq_of_lt (by omega)

/-- Settles O50: the two ripple computations are exact, and what is said of the carry and of the absolute value holds of the exact results. -/
theorem rippleArithmeticIsExact : Obligations.RippleArithmeticIsExact := by
  intro n x y hx hy
  have hadd : addMag n x y false = x + y := addMag_exact n x y false hx hy
  have hsub : subMag n (max x y) (min x y) false = max x y - min x y :=
    subMag_exact n _ _ false (max_lt hx hy) min_le_max
  rw [hadd, hsub]
  refine ⟨rfl, by rw [Nat.pow_succ]; omega, sum_div_eq_carry hx hy, ?_⟩
  rw [Nat.cast_sub min_le_max, Nat.cast_max, Nat.cast_min, max_sub_min_eq_abs']

/-! ## Signed values of records (00_scope.md R16) -/

theorem Handle.val_operand_flip (h : Handle) :
    (if h.operand.flip.neg then -(h.operand.flip.mag : Int) else h.operand.flip.mag) = -h.val := by
  cases hneg : h.neg <;> simp [Handle.val, Handle.operand, Operand.flip, hneg]

theorem Handle.abs_val (h : Handle) : |h.val| = h.mag := by
  cases hneg : h.neg <;> simp [Handle.val, hneg]

/-- A result write leaves the signed value of what it wrote, a zero's sign dropped. -/
theorem Handle.val_store_signed (h : Handle) (m : Nat) (neg : Bool) : (h.store m neg).val = if neg then -(m : Int) else m := by
  by_cases hm : m = 0 <;> simp [Handle.val, Handle.store, hm]

/-- Only a negative value has a sign (10_state.md R25). -/
theorem Handle.Wf.neg_eq_false_of_nonneg (hw : h.Wf cfg) (hv : 0 ≤ h.val) : h.neg = false := by
  by_contra hneg
  rw [Bool.not_eq_false] at hneg
  rw [Handle.val, if_pos hneg] at hv
  exact absurd (hw.sign (by omega)) (by simp [hneg])

/-- A well-formed record of the value zero is the canonical zero (10_state.md R25). -/
theorem Handle.Wf.canonical_of_val_eq_zero (hw : h.Wf cfg) (hv : h.val = 0) : h.mag = 0 ∧ h.msb = 0 ∧ h.neg = false := by
  have hmag : h.mag = 0 := by
    have habs := h.abs_val
    rw [hv] at habs
    simpa using habs.symm
  exact ⟨hmag, hw.msb_eq_zero_iff.2 hmag, hw.sign hmag⟩

/-- Every index reads a well-formed record: one that names no handle reads the record of an UNINIT one. -/
theorem State.Inv.handle_wf (hs : s.Inv) (i : Index) : (s.handle i).Wf s.cfg := by
  by_cases hi : s.Names i
  · exact hs.handle hi
  · have hout : s.handles.length ≤ i.toNat := by
      rw [hs.length]
      simpa [Config.names] using hi
    rw [State.handle, List.getD_eq_default _ _ hout]
    exact Handle.wf_reset

theorem State.Inv.operand_exact (hs : s.Inv) (i : Index) : (s.operand i).Exact :=
  (hs.handle_wf i).operand

/-! ## The growth step and the result write (R143, R146) -/

/-- A met growth and the result write: the result in the storage the destination then has. -/
theorem State.growWrite_of_canGrow (hs : s.Inv) (hd : s.Names d) (hi : s.initialized d = true) (hcan : s.CanGrow d n) :
    Answered s (s.growWrite d n m neg) .ok 0 ∧ (∃ h : Handle, (s.growWrite d n m neg).handle d = h.store m neg) ∧
      GrewTo s (s.growWrite d n m neg) d n := by
  obtain ⟨t, hg⟩ := State.grow_ok_iff.2 hcan
  have he : s.growWrite d n m neg = t.writeResult d m neg := by rw [State.growWrite, hg]
  obtain ⟨-, hstatus, -⟩ := State.grow_frame hg
  obtain ⟨ht, hdt, -, -⟩ := hs.grown hd (State.initialized_iff.1 hi) hg
  have hrec : (t.writeResult d m neg).handle d = (t.handle d).store m neg := State.handle_writeResult (ht.index hdt)
  rw [he]
  refine ⟨⟨?_, rfl⟩, ⟨_, hrec⟩, (State.grewTo_of_grow hs hd hg).of_storage ?_ rfl⟩
  · rw [State.writeResult, State.finish_status, State.setHandle_status, hstatus]
  · rw [hrec]
    exact Handle.store_storage _ _ _

/-- A growth that is not met and the weak failure: the destination's record is a draw (R146). -/
theorem State.growWrite_of_not_canGrow (hs : s.Inv) (hd : s.Names d) (hcan : ¬ s.CanGrow d n) :
    Answered s (s.growWrite d n m neg) .outOfMemory 0 ∧
      (∃ turn, (s.growWrite d n m neg).handle d = (s.handle d).drawn turn) ∧ (s.growWrite d n m neg).free = s.free := by
  obtain ⟨t, hg⟩ := State.grow_oom_of_not_canGrow hcan
  have he : s.growWrite d n m neg = t.failWeak d := by rw [State.growWrite, hg]
  rw [he]
  rcases (State.grow_oom hg).1 with rfl | rfl
  · exact ⟨⟨rfl, rfl⟩, ⟨_, State.handle_failWeak (hs.index hd)⟩, rfl⟩
  · exact ⟨⟨rfl, rfl⟩, ⟨_, State.handle_failWeak (s := s.nextTurn) (hs.index hd)⟩, rfl⟩

theorem Answered.endedWith {c : Code} {r : Word} (hans : Answered s t c r) : EndedWith t c := by
  obtain ⟨hstatus, -⟩ := hans
  rw [EndedWith, hstatus, statusCode_word]

theorem Answered.not_ok {c : Code} {r : Word} (hans : Answered s t c r) (hc : c ≠ .ok) : ¬ EndedWith t .ok := by
  rw [EndedWith, hans.endedWith]
  cases c <;> simp_all [Code.value]

/-! ## ADD, SUB, ADDABS and SUBABS as one computation -/

/-- In `s` the command `i` makes the checks of a three-operand command on `d`, `a` and `b`, asks for `n` bits in `d` and writes the value `v` there. -/
def State.Computes (s : State) (i : Instr) (d a b : Index) (n : Nat) (v : Int) : Prop :=
  ∃ m neg, exec i s = .next (if s.arithRefused d a b then s.raise .invalidArgument else s.growWrite d n m neg) ∧
    (if neg then -(m : Int) else m) = v

theorem computes_add (hs : s.Inv) (d a b : Index) :
    s.Computes (.add d a b) d a b (signedBits (s.operand a) (s.operand b)) ((s.handle a).val + (s.handle b).val) := by
  obtain ⟨m, neg, he, -, hv⟩ := s.signedSum_eq d (hs.operand_exact a) (hs.operand_exact b)
  refine ⟨m, neg, ?_, hv⟩
  rw [← he]
  rfl

theorem computes_sub (hs : s.Inv) (d a b : Index) :
    s.Computes (.sub d a b) d a b (signedBits (s.operand a) (s.operand b).flip) ((s.handle a).val - (s.handle b).val) := by
  have hb : (s.operand b).flip.Exact := hs.operand_exact b
  obtain ⟨m, neg, he, -, hv⟩ := s.signedSum_eq d (hs.operand_exact a) hb
  refine ⟨m, neg, ?_, hv.trans ?_⟩
  · rw [← he]
    rfl
  · rw [State.operand, State.operand, Handle.val_operand_flip, sub_eq_add_neg]
    rfl

theorem computes_addabs (hs : s.Inv) (d a b : Index) :
    s.Computes (.addabs d a b) d a b (addBits (s.operand a) (s.operand b)) (|(s.handle a).val| + |(s.handle b).val|) := by
  refine ⟨_, false, rfl, ?_⟩
  rw [sumMag_exact (hs.operand_exact a) (hs.operand_exact b), Handle.abs_val, Handle.abs_val]
  exact Nat.cast_add _ _

theorem computes_subabs (hs : s.Inv) (d a b : Index) :
    s.Computes (.subabs d a b) d a b (subBits (s.operand a) (s.operand b)) |(|(s.handle a).val| - |(s.handle b).val|)| := by
  refine ⟨_, false, rfl, ?_⟩
  rw [diffMag_exact (hs.operand_exact a) (hs.operand_exact b), Handle.abs_val, Handle.abs_val, ← max_sub_min_eq_abs',
    ← Nat.cast_max, ← Nat.cast_min, ← Nat.cast_sub min_le_max]
  rfl

namespace State.Computes

/-- Where the checks pass, a three-operand command is its growth step and what follows. -/
theorem exec_of_ready (hc : s.Computes i d a b n v) (hready : s.Ready d [a, b]) :
    ∃ m neg, exec i s = .next (s.growWrite d n m neg) ∧ (if neg then -(m : Int) else m) = v := by
  obtain ⟨m, neg, hexec, hv⟩ := hc
  refine ⟨m, neg, ?_, hv⟩
  rw [hexec, State.arithRefused_eq_false_iff.2 hready]
  rfl

/-- The value is written where the growth is met. -/
theorem of_canGrow (hs : s.Inv) (hc : s.Computes i d a b n v) (hready : s.Ready d [a, b]) (hcan : s.CanGrow d n) :
    ∃ t, exec i s = .next t ∧ Answered s t .ok 0 ∧ (t.handle d).val = v ∧ (t.handle d).msb.toNat = bitlen (t.handle d).mag ∧
      (t.handle d).indet = false ∧ GrewTo s t d n ∧ KeepsOutside s t (some d) := by
  obtain ⟨m, neg, hexec, hv⟩ := hc.exec_of_ready hready
  obtain ⟨hd, hi, -⟩ := hready
  obtain ⟨hans, ⟨h, hrec⟩, hgrew⟩ := State.growWrite_of_canGrow (m := m) (neg := neg) hs hd hi hcan
  have hlen := ((exec_inv hs hexec).handle_wf d).length
  refine ⟨_, hexec, hans, ?_, hlen, ?_, hgrew, .growWrite s d n m neg⟩ <;> rw [hrec]
  · exact (Handle.val_store_signed h m neg).trans hv
  · rfl

/-- The destination is left indeterminate where the growth is not met. -/
theorem of_not_canGrow (hs : s.Inv) (hc : s.Computes i d a b n v) (hready : s.Ready d [a, b]) (hcan : ¬ s.CanGrow d n) :
    ∃ t, exec i s = .next t ∧ Answered s t .outOfMemory 0 ∧ (∃ turn, t.handle d = (s.handle d).drawn turn) ∧ t.free = s.free ∧
      KeepsOutside s t (some d) := by
  obtain ⟨m, neg, hexec, -⟩ := hc.exec_of_ready hready
  obtain ⟨hd, -⟩ := hready
  obtain ⟨hans, hdraw, hfree⟩ := State.growWrite_of_not_canGrow (m := m) (neg := neg) hs hd hcan
  exact ⟨_, hexec, hans, hdraw, hfree, .growWrite s d n m neg⟩

/-- A three-operand command that ends with OK has passed its checks. -/
theorem ready_of_ok (hc : s.Computes i d a b n v) (hexec : exec i s = .next t) (hok : EndedWith t .ok) : s.Ready d [a, b] := by
  obtain ⟨m, neg, he, -⟩ := hc
  cases he.symm.trans hexec
  obtain ⟨hpass, -⟩ := State.pass_of_ok hok
  exact State.arithRefused_eq_false_iff.1 (Bool.eq_false_of_not_eq_true hpass)

/-- A three-operand command that ends with OK has met its growth and written its value. -/
theorem val_of_ok (hs : s.Inv) (hc : s.Computes i d a b n v) (hexec : exec i s = .next t) (hok : EndedWith t .ok) :
    (t.handle d).val = v := by
  have hready := hc.ready_of_ok hexec hok
  by_cases hcan : s.CanGrow d n
  · obtain ⟨u, hu, -, hval, -⟩ := hc.of_canGrow hs hready hcan
    cases hu.symm.trans hexec
    exact hval
  · obtain ⟨u, hu, hans, -⟩ := hc.of_not_canGrow hs hready hcan
    cases hu.symm.trans hexec
    exact absurd hok (hans.not_ok (by decide))

/-- A value that is not negative is written without a sign. -/
theorem unsigned_of_ok (hs : s.Inv) (hc : s.Computes i d a b n v) (hv : 0 ≤ v) (hexec : exec i s = .next t) (hok : EndedWith t .ok) :
    (t.handle d).val = v ∧ (t.handle d).neg = false := by
  have hval := hc.val_of_ok hs hexec hok
  exact ⟨hval, ((exec_inv hs hexec).handle_wf d).neg_eq_false_of_nonneg (hval ▸ hv)⟩

end State.Computes

/-- Settles O41: ADD computes the sum of the two values. -/
theorem addGivesTheExactSum : Obligations.AddGivesTheExactSum := by
  intro s d a b hs
  have hc := computes_add hs d a b
  refine ⟨fun t => hc.val_of_ok hs, hc.of_canGrow hs, fun hready hcan => ?_⟩
  obtain ⟨t, hexec, hans, -⟩ := hc.of_not_canGrow hs hready hcan
  exact ⟨t, hexec, hans.endedWith⟩

/-- Settles O42: SUB computes the difference of the two values. -/
theorem subGivesTheExactDifference : Obligations.SubGivesTheExactDifference :=
  fun _ d a b hs => ⟨fun _ => (computes_sub hs d a b).val_of_ok hs, (computes_sub hs d a b).of_canGrow hs⟩

/-- Settles O43: ADDABS computes the sum of the absolute values, which is not negative. -/
theorem addabsGivesTheSumOfMagnitudes : Obligations.AddabsGivesTheSumOfMagnitudes :=
  fun _ d a b hs => ⟨fun _ => (computes_addabs hs d a b).unsigned_of_ok hs (by positivity), (computes_addabs hs d a b).of_canGrow hs⟩

/-- Settles O44: SUBABS computes the absolute difference of the absolute values, which is not negative. -/
theorem subabsGivesTheDifferenceOfMagnitudes : Obligations.SubabsGivesTheDifferenceOfMagnitudes :=
  fun _ d a b hs => ⟨fun _ => (computes_subabs hs d a b).unsigned_of_ok hs (abs_nonneg _), (computes_subabs hs d a b).of_canGrow hs⟩

/-- Values of one magnitude and unlike signs cancel. -/
theorem Handle.val_add_eq_zero {h' : Handle} (hmag : h.mag = h'.mag) (hneg : h.neg ≠ h'.neg) : h.val + h'.val = 0 := by
  cases hn : h.neg <;> cases hn' : h'.neg <;> simp_all [Handle.val]

/-- Values of one magnitude and one sign are the same. -/
theorem Handle.val_eq {h' : Handle} (hmag : h.mag = h'.mag) (hneg : h.neg = h'.neg) : h.val = h'.val := by
  rw [Handle.val, Handle.val, hmag, hneg]

/-- Settles O45: the exact result is zero, and a well-formed zero is the canonical one. -/
theorem magnitudeTieGivesTheCanonicalZero : Obligations.MagnitudeTieGivesTheCanonicalZero := by
  rintro s t d a b hs hmag (⟨hexec, hneg⟩ | ⟨hexec, hneg⟩) hok <;>
    refine ((exec_inv hs hexec).handle_wf d).canonical_of_val_eq_zero ?_
  · exact ((computes_add hs d a b).val_of_ok hs hexec hok).trans (Handle.val_add_eq_zero hmag hneg)
  · exact ((computes_sub hs d a b).val_of_ok hs hexec hok).trans (sub_eq_zero.2 (Handle.val_eq hmag hneg))

/-- Settles O46: the four commands fail alike, and the drawn record is well formed because every command keeps the invariant. -/
theorem weakFailureKeepsTheInvariants : Obligations.WeakFailureKeepsTheInvariants := by
  intro s d a b i n hs hready hcommand hcan
  have hc : ∃ v, s.Computes i d a b n v := by
    rcases hcommand with ⟨rfl, rfl⟩ | ⟨rfl, rfl⟩ | ⟨rfl, rfl⟩ | ⟨rfl, rfl⟩
    · exact ⟨_, computes_add hs d a b⟩
    · exact ⟨_, computes_sub hs d a b⟩
    · exact ⟨_, computes_addabs hs d a b⟩
    · exact ⟨_, computes_subabs hs d a b⟩
  obtain ⟨v, hc⟩ := hc
  obtain ⟨t, hexec, hans, ⟨turn, hdraw⟩, hfree, hkeep⟩ := hc.of_not_canGrow hs hready hcan
  have hwf := (exec_inv hs hexec).handle_wf d
  refine ⟨t, hexec, hans, ?_, ?_, ?_, hfree, hwf.bound, hwf.length, hwf.sign, hkeep⟩ <;> rw [hdraw] <;> rfl

/-! ## INCABS (R162 to R168) -/

/-- The growth step of INCABS of a nonzero magnitude, and the end of the command (R162, R164, R166). -/
def State.incabsCommand (s : State) (d : Index) : State :=
  match s.grow d ((s.handle d).msb.toNat + 1) with
  | .oom t => t.raise .outOfMemory
  | .ok t => (t.setHandle d ((t.handle d).withMag (incMag (wordsFor (s.handle d).msb.toNat) (s.handle d).mag))).finish .ok 0

/-- What INCABS does where its checks pass. -/
theorem exec_incabs (hd : s.Names d) (hr : s.readable d = true) : exec (.incabs d) s =
    .next (if (s.handle d).msb = 0 then (s.setHandle d ((s.handle d).withMag 1)).finish .ok 0 else s.incabsCommand d) := by
  simp only [exec, execIncabs, State.badIndex_one hd, hr, Bool.not_true, Bool.false_eq_true, if_false]
  rfl

/-- An INCABS that ends with OK has passed its checks. -/
theorem checks_of_exec_incabs (hexec : exec (.incabs d) s = .next t) (hok : EndedWith t .ok) : s.Names d ∧ s.readable d = true := by
  cases hexec
  obtain ⟨hnames, hok⟩ := State.pass_of_ok hok
  obtain ⟨hr, -⟩ := State.pass_of_ok hok
  exact ⟨State.names_of_index hnames, by simpa using hr⟩

/-- The increment over the words of a well-formed handle's significant bits adds one (R164). -/
theorem Handle.Wf.incMag_eq (hw : h.Wf cfg) : incMag (wordsFor h.msb.toNat) h.mag = h.mag + 1 := by
  refine incMag_exact _ _ ?_
  rw [← bitlen_le_iff, ← hw.length]
  exact le_wordsFor _

/-- INCABS of a zero writes 1 in the storage the handle has (R163). -/
theorem incabs_of_zero (hs : s.Inv) (hd : s.Names d) (hr : s.readable d = true) (hzero : (s.handle d).mag = 0) :
    ∃ t, exec (.incabs d) s = .next t ∧ s.Wrote t d ((s.handle d).withMag 1) := by
  refine ⟨_, ?_, State.wrote_finish (hs.index hd) _⟩
  rw [exec_incabs hd hr, if_pos ((hs.handle hd).msb_eq_zero_iff.2 hzero)]

/-- INCABS of a nonzero magnitude whose growth is met (R162, R164). -/
theorem incabs_of_canGrow (hs : s.Inv) (hd : s.Names d) (hr : s.readable d = true) (hnonzero : (s.handle d).mag ≠ 0)
    (hcan : s.CanGrow d ((s.handle d).msb.toNat + 1)) :
    ∃ t, exec (.incabs d) s = .next t ∧ Answered s t .ok 0 ∧ (t.handle d).mag = (s.handle d).mag + 1 ∧
      (t.handle d).neg = (s.handle d).neg ∧ (t.handle d).indet = false ∧ GrewTo s t d ((s.handle d).msb.toNat + 1) ∧
      KeepsOutside s t (some d) := by
  obtain ⟨hk, hdet⟩ := State.readable_iff.1 hr
  obtain ⟨u, hg⟩ := State.grow_ok_iff.2 hcan
  obtain ⟨hkeep, hstatus, -⟩ := State.grow_frame hg
  obtain ⟨hu, hdu, -, -⟩ := hs.grown hd hk hg
  obtain ⟨-, -, hneg, hindet⟩ := State.grow_value (hs.index hd) hg
  have hrec := State.handle_setHandle_same u d ((u.handle d).withMag ((s.handle d).mag + 1)) (hu.index hdu)
  refine ⟨(u.setHandle d ((u.handle d).withMag ((s.handle d).mag + 1))).finish .ok 0, ?_, ⟨?_, rfl⟩, ?_⟩
  · rw [exec_incabs hd hr, if_neg (mt (hs.handle hd).msb_eq_zero_iff.1 hnonzero), State.incabsCommand, hg, (hs.handle hd).incMag_eq]
  · rw [State.finish_status, State.setHandle_status, hstatus]
  · rw [State.handle_finish, hrec]
    refine ⟨rfl, hneg, hindet.trans hdet, (State.grewTo_of_grow hs hd hg).of_storage ?_ rfl, (hkeep.setHandle _).finish _ _⟩
    rw [State.handle_finish, hrec]
    exact Handle.withMag_storage _ _

/-- INCABS of a nonzero magnitude whose growth is not met leaves the handle and FREE (R166). -/
theorem incabs_of_not_canGrow (hs : s.Inv) (hd : s.Names d) (hr : s.readable d = true) (hnonzero : (s.handle d).mag ≠ 0)
    (hcan : ¬ s.CanGrow d ((s.handle d).msb.toNat + 1)) :
    ∃ t, exec (.incabs d) s = .next t ∧ Answered s t .outOfMemory 0 ∧ t.handle d = s.handle d ∧ t.free = s.free ∧
      KeepsOutside s t (some d) := by
  obtain ⟨u, hg⟩ := State.grow_oom_of_not_canGrow hcan
  refine ⟨u.raise .outOfMemory, ?_, State.raise_of_grow_oom hg⟩
  rw [exec_incabs hd hr, if_neg (mt (hs.handle hd).msb_eq_zero_iff.1 hnonzero), State.incabsCommand, hg]

/-- An INCABS that ends with OK has written 1 over a zero, or has met its growth and added one (R168). -/
theorem value_of_exec_incabs (hs : s.Inv) (hexec : exec (.incabs d) s = .next t) (hok : EndedWith t .ok) :
    (t.handle d).mag = (s.handle d).mag + 1 ∧ (t.handle d).neg = (s.handle d).neg := by
  obtain ⟨hd, hr⟩ := checks_of_exec_incabs hexec hok
  by_cases hzero : (s.handle d).mag = 0
  · obtain ⟨u, hu, -, hrec, -⟩ := incabs_of_zero hs hd hr hzero
    cases hu.symm.trans hexec
    rw [hrec, hzero]
    exact ⟨rfl, rfl⟩
  by_cases hcan : s.CanGrow d ((s.handle d).msb.toNat + 1)
  · obtain ⟨u, hu, -, hmag, hneg, -⟩ := incabs_of_canGrow hs hd hr hzero hcan
    cases hu.symm.trans hexec
    exact ⟨hmag, hneg⟩
  · obtain ⟨u, hu, hans, -⟩ := incabs_of_not_canGrow hs hd hr hzero hcan
    cases hu.symm.trans hexec
    exact absurd hok (hans.not_ok (by decide))

/-- Settles O47: the cases of INCABS of a nonzero magnitude, and the value it leaves in every case that ends with OK. -/
theorem incabsAddsOneToTheMagnitude : Obligations.IncabsAddsOneToTheMagnitude :=
  fun _ _ hs => ⟨fun _ => value_of_exec_incabs hs, incabs_of_canGrow hs, incabs_of_not_canGrow hs⟩

/-- Settles O48: INCABS of zero is a record write. -/
theorem incabsOfZeroAsksForNothing : Obligations.IncabsOfZeroAsksForNothing := by
  intro s d hs hd hr hzero
  obtain ⟨t, hexec, hans, hrec, hfree, hturn, hkeep⟩ := incabs_of_zero hs hd hr hzero
  refine ⟨t, hexec, hans, hrec, ?_, hfree, hturn, hkeep⟩
  rw [hrec]
  exact wordAt_zero 1

/-- Adding one to a number whose bits are all one takes one more bit. -/
theorem bitlen_succ_of_ones (hones : m + 1 = 2 ^ bitlen m) : bitlen (m + 1) = bitlen m + 1 := by
  have hle : bitlen (m + 1) ≤ bitlen m + 1 := (bitlen_le_iff _ _).2 (by rw [hones]; exact Nat.pow_lt_pow_succ one_lt_two)
  have hgt : ¬ bitlen (m + 1) ≤ bitlen m := by rw [bitlen_le_iff, hones]; exact lt_irrefl _
  omega

/-- Adding one to any other number takes the same bits. -/
theorem bitlen_succ_of_not_ones (hones : m + 1 ≠ 2 ^ bitlen m) : bitlen (m + 1) = bitlen m :=
  le_antisymm ((bitlen_le_iff _ _).2 (lt_of_le_of_ne (lt_two_pow_bitlen m) hones)) (bitlen_mono m.le_succ)

/-- Settles O49: the bit length of the record written is exact, and adding one to the magnitude carries past the top bit only through ones. -/
theorem incabsRaisesTheBitLengthByAtMostOne : Obligations.IncabsRaisesTheBitLengthByAtMostOne := by
  intro s t d hs hexec hok
  have hold := (hs.handle_wf d).length
  have hnew := ((exec_inv hs hexec).handle_wf d).length
  obtain ⟨hmag, -⟩ := value_of_exec_incabs hs hexec hok
  have hpos : 0 < 2 ^ bitlen (s.handle d).mag := by positivity
  refine ⟨hnew, ?_⟩
  rw [BitVec.toNat_eq, hnew, hmag, hold]
  by_cases hones : (s.handle d).mag + 1 = 2 ^ bitlen (s.handle d).mag
  · exact .inl ⟨bitlen_succ_of_ones hones, by omega⟩
  · exact .inr ⟨bitlen_succ_of_not_ones hones, by omega⟩

end Sys2Proof.Machine
end

section
/-!
The comparison commands (42_compare.md): the order they return is the order of the values compared. And what comparisons and queries share: they read neither
STATUS nor RESULT, the only state they write.
-/

namespace Sys2Proof.Machine

variable {s s' t u t' u' : State} {i : Instr} {a b : Index} {h h' : Handle} {cfg : Config} {v w : Int}

/-! ## The order of two numbers (R180) -/

/-- `+1`, `-1` or `0` as `v` is above, below or equal to `w`. -/
def order (v w : Int) : Int :=
  if w < v then 1 else if v < w then -1 else 0

theorem order_of_gt (hvw : w < v) : order v w = 1 :=
  if_pos hvw

theorem order_of_lt (hvw : v < w) : order v w = -1 := by
  rw [order, if_neg hvw.not_gt, if_pos hvw]

/-- Negation reverses the order. -/
theorem order_neg (v w : Int) : order (-v) (-w) = -order v w := by
  rcases lt_trichotomy v w with hvw | rfl | hvw
  · rw [order_of_lt hvw, order_of_gt (neg_lt_neg hvw), neg_neg]
  · simp [order]
  · rw [order_of_gt hvw, order_of_lt (neg_lt_neg hvw)]

/-- An order as RESULT holds it (R180). -/
theorem enc32_order (v w : Int) : enc32 (order v w) = if w < v then 1 else if v < w then 0xFFFFFFFF else 0 := by
  rw [order, apply_ite enc32, apply_ite enc32]
  rfl

/-! ## The two comparisons of records (R181, R185) -/

theorem Operand.cmpAbs_eq_order {x y : Operand} (hx : x.Exact) (hy : y.Exact) : x.cmpAbs y = order x.mag y.mag := by
  rw [Operand.cmpAbs, cmpMag_order hx hy]
  simp only [order, Nat.cast_lt]

/-- The sign of a well-formed record is that of its value (10_state.md R25). -/
theorem Handle.Wf.neg_iff (hw : h.Wf cfg) : h.neg = true ↔ h.val < 0 := by
  refine ⟨fun hneg => ?_, fun hv => ?_⟩
  · have hmag : h.mag ≠ 0 := fun hzero => by simp [hw.sign hzero] at hneg
    rw [Handle.val, if_pos hneg]
    omega
  · by_contra hneg
    rw [Handle.val, if_neg hneg] at hv
    omega

theorem Handle.Wf.neg_eq_false_iff (hw : h.Wf cfg) : h.neg = false ↔ 0 ≤ h.val := by
  rw [← Bool.not_eq_true, hw.neg_iff, not_lt]

/-- Unlike signs decide; like signs leave it to the magnitudes, which two negative values order the other way round (R181). -/
theorem Handle.Wf.cmp_eq_order (hw : h.Wf cfg) (hw' : h'.Wf cfg) : h.operand.cmp h'.operand = order h.val h'.val := by
  have habs : h.operand.cmpAbs h'.operand = order h.mag h'.mag := Operand.cmpAbs_eq_order hw.operand hw'.operand
  cases hneg : h.neg <;> cases hneg' : h'.neg
  · simp [Operand.cmp, Handle.operand, Handle.val, hneg, hneg', ← habs]
  · rw [order_of_gt ((hw'.neg_iff.1 hneg').trans_le (hw.neg_eq_false_iff.1 hneg))]
    simp [Operand.cmp, Handle.operand, hneg, hneg']
  · rw [order_of_lt ((hw.neg_iff.1 hneg).trans_le (hw'.neg_eq_false_iff.1 hneg'))]
    simp [Operand.cmp, Handle.operand, hneg, hneg']
  · simp [Operand.cmp, Handle.operand, Handle.val, hneg, hneg', order_neg, ← habs]

/-! ## CMP and CMPABS (R182, R186) -/

theorem exec_cmp (ha : s.Names a) (hb : s.Names b) (hra : s.readable a = true) (hrb : s.readable b = true) :
    exec (.cmp a b) s = .next (s.finish .ok (enc32 ((s.operand a).cmp (s.operand b)))) := by
  simp [exec, execCmp, State.compareRefused_eq_false_iff.2 ⟨⟨ha, hb⟩, hra, hrb⟩]

theorem exec_cmpabs (ha : s.Names a) (hb : s.Names b) (hra : s.readable a = true) (hrb : s.readable b = true) :
    exec (.cmpabs a b) s = .next (s.finish .ok (enc32 ((s.operand a).cmpAbs (s.operand b)))) := by
  simp [exec, execCmpabs, State.compareRefused_eq_false_iff.2 ⟨⟨ha, hb⟩, hra, hrb⟩]

/-- Settles O51: the comparison of the two records is the order of their values. -/
theorem cmpReturnsTheSignedOrder : Obligations.CmpReturnsTheSignedOrder := by
  intro s a b hs ha hb hra hrb
  have horder : (s.operand a).cmp (s.operand b) = order (s.handle a).val (s.handle b).val :=
    (hs.handle ha).cmp_eq_order (hs.handle hb)
  rw [exec_cmp ha hb hra hrb, horder, enc32_order]

/-- Settles O52: the comparison of the two magnitudes is the order of the absolute values. -/
theorem cmpabsReturnsTheMagnitudeOrder : Obligations.CmpabsReturnsTheMagnitudeOrder := by
  intro s a b hs ha hb hra hrb
  have horder : (s.operand a).cmpAbs (s.operand b) = order (s.handle a).mag (s.handle b).mag :=
    Operand.cmpAbs_eq_order (hs.operand_exact a) (hs.operand_exact b)
  rw [exec_cmpabs ha hb hra hrb, horder, enc32_order, Handle.abs_val, Handle.abs_val]

/-! ## Comparisons and queries are read-only (R183, 43_query.md R201) -/

theorem State.Reports.onlyAnswers (hreport : s.Reports t) : OnlyAnswers s t := by
  obtain ⟨c, r, rfl, -⟩ := hreport
  rfl

/-- One check with the same results on either side of it. -/
theorem State.result_ite_congr {p : Prop} [Decidable p] (ht : t'.result = t.result) (hu : u'.result = u.result) :
    State.result (if p then t' else u') = State.result (if p then t else u) := by
  split
  · exact ht
  · exact hu

/-- The result of a comparison or a query depends on neither STATUS nor RESULT. -/
theorem exec_next_result_of_onlyAnswers (hi : i.returnsResult = true) (hs : OnlyAnswers s s') :
    ∃ t t', exec i s = .next t ∧ exec i s' = .next t' ∧ t'.result = t.result := by
  rw [hs]
  cases i with
  | init | destroy | grow | zero | seti | copy | add | sub | addabs | subabs | incabs => cases hi
  | cmp a b => exact ⟨_, _, rfl, rfl, State.result_ite_congr rfl rfl⟩
  | cmpabs a b => exact ⟨_, _, rfl, rfl, State.result_ite_congr rfl rfl⟩
  | qmsb a => exact ⟨_, _, rfl, rfl, State.result_ite_congr rfl rfl⟩
  | qneg a => exact ⟨_, _, rfl, rfl, State.result_ite_congr rfl rfl⟩
  | qcap a => exact ⟨_, _, rfl, rfl, State.result_ite_congr rfl rfl⟩
  | qword a ext => exact ⟨_, _, rfl, rfl, State.result_ite_congr rfl (State.result_ite_congr rfl rfl)⟩
  | qstate a => exact ⟨_, _, rfl, rfl, State.result_ite_congr rfl rfl⟩
  | qfree => exact ⟨_, _, rfl, rfl, rfl⟩

/-- Settles O58: a comparison or a query only reports, and asked again it reads nothing that its report wrote. -/
theorem queriesAreReadOnly : Obligations.QueriesAreReadOnly := by
  intro i s t hi hexec
  have hanswers : OnlyAnswers s t := (exec_reports hi hexec).onlyAnswers
  refine ⟨hanswers, fun u hagain => ?_⟩
  obtain ⟨t₁, u₁, ht, hu, hresult⟩ := exec_next_result_of_onlyAnswers hi hanswers
  cases ht.symm.trans hexec
  cases hu.symm.trans hagain
  exact hresult

end Sys2Proof.Machine
end

section
/-!
The query commands (43_query.md): what each answers where its checks pass, and what the answer is worth: a bit length, a sign, a capacity, a word of the
magnitude, a kind with its indeterminate flag, and the words of the pool that are free.
-/

namespace Sys2Proof.Machine

variable {s : State} {a : Index} {h : Handle} {cfg : Config}

/-! ## What each query answers -/

theorem exec_qmsb (ha : s.Names a) (hr : s.readable a = true) : exec (.qmsb a) s = .next (s.finish .ok (s.handle a).msb) := by
  simp [exec, execQmsb, State.queryRefused_eq_false_iff.2 ⟨ha, hr⟩]

theorem exec_qneg (ha : s.Names a) (hr : s.readable a = true) :
    exec (.qneg a) s = .next (s.finish .ok (if (s.handle a).neg then 1 else 0)) := by
  simp [exec, execQneg, State.queryRefused_eq_false_iff.2 ⟨ha, hr⟩]

theorem exec_qcap (ha : s.Names a) (hr : s.readable a = true) :
    exec (.qcap a) s = .next (s.finish .ok (BitVec.ofNat 32 (s.handle a).cap)) := by
  simp [exec, execQcap, State.queryRefused_eq_false_iff.2 ⟨ha, hr⟩]

theorem exec_qword (ha : s.Names a) (hr : s.readable a = true) (ext : Word) : exec (.qword a ext) s = .next
    (if (s.handle a).cap ≤ ext.toNat then s.raise .invalidArgument else s.finish .ok (wordAt (s.handle a).mag ext.toNat)) := by
  rw [exec, execQword, State.queryRefused_eq_false_iff.2 ⟨ha, hr⟩]
  rfl

theorem exec_qstate (ha : s.Names a) : exec (.qstate a) s = .next (s.finish .ok (s.handle a).stateWord) := by
  simp [exec, execQstate, State.badIndex_one ha]

/-! ## What the answers are worth -/

theorem Handle.natAbs_val (h : Handle) : h.val.natAbs = h.mag := by
  rw [← Nat.cast_inj (R := ℤ), Int.natCast_natAbs, h.abs_val]

/-- The cached bit length is the bit length of the absolute value (10_state.md R25). -/
theorem Handle.Wf.msb_eq (hw : h.Wf cfg) : h.msb = BitVec.ofNat 32 (bitlen h.val.natAbs) := by
  rw [h.natAbs_val, ← hw.length, BitVec.ofNat_toNat, BitVec.setWidth_eq]

/-- A legal capacity fits a result word (00_scope.md R7). -/
theorem Handle.Wf.cap_lt (hl : cfg.Legal) (hw : h.Wf cfg) : h.cap < 2 ^ 32 := by
  have hcap := hw.cap_le hl
  have hmax := hl.max_bits
  omega

/-- The bits of a word of a magnitude (20_memory.md R51). -/
theorem getLsbD_wordAt {k : Nat} (hk : k < 32) (x i : Nat) : (wordAt x i).getLsbD k = x.testBit (32 * i + k) := by
  rw [wordAt, BitVec.getLsbD_ofNat, decide_eq_true hk, Bool.true_and, Nat.testBit_div_two_pow, Nat.add_comm k]

/-- A word wholly above the bit length of a magnitude is zero. -/
theorem wordAt_eq_zero {x i : Nat} (hx : bitlen x ≤ 32 * i) : wordAt x i = 0 := by
  rw [wordAt, Nat.div_eq_of_lt ((bitlen_le_iff x _).1 hx)]
  rfl

/-- The kind and the indeterminate flag as a number (R198). -/
theorem Handle.toNat_stateWord (h : Handle) : h.stateWord.toNat =
    (match h.kind with
      | .uninit => 0
      | .inlined => 1
      | .heap => 2) + if h.indet then 4 else 0 := by
  rw [Handle.stateWord]
  cases h.kind <;> cases h.indet <;> rfl

/-! ## The queries (R191, R192, R194, R197, R198, R200) -/

/-- Settles O53: the length QMSB reads is cached, and in a well-formed record it is the bit length of the absolute value. -/
theorem qmsbReturnsTheBitLength : Obligations.QmsbReturnsTheBitLength := by
  intro s a hs ha hr
  rw [exec_qmsb ha hr, (hs.handle ha).msb_eq]

/-- Settles O54: only a negative value has a sign in a well-formed record, and a legal capacity fits the result. -/
theorem qnegAndQcapReturnSignAndCapacity : Obligations.QnegAndQcapReturnSignAndCapacity := by
  intro s a hs ha hr
  have hw : (s.handle a).Wf s.cfg := hs.handle ha
  refine ⟨?_, _, exec_qcap ha hr, rfl, rfl, Nat.mod_eq_of_lt (hw.cap_lt hs.legal)⟩
  simp only [exec_qneg ha hr, hw.neg_iff]

/-- Settles O55: below the capacity the answer is the indexed word, read bit by bit, and zero above the bit length; from the capacity on there is none. -/
theorem qwordReturnsTheIndexedWord : Obligations.QwordReturnsTheIndexedWord := by
  intro s a ext hs ha hr
  refine ⟨fun hindex => ⟨s.finish .ok (wordAt (s.handle a).mag ext.toNat), ?_, rfl, rfl, ?_, ?_⟩, fun hindex => ?_⟩
  · rw [exec_qword ha hr, if_neg hindex.not_ge]
  · intro k hk
    exact getLsbD_wordAt hk _ _
  · intro hmsb
    exact wordAt_eq_zero ((hs.handle ha).length ▸ hmsb)
  · rw [exec_qword ha hr, if_pos hindex]

/-- Settles O56: QSTATE checks the index alone, and its word holds the kind below the flag. -/
theorem qstateReturnsKindAndIndeterminate : Obligations.QstateReturnsKindAndIndeterminate := by
  intro s a ha
  exact ⟨_, exec_qstate ha, rfl, rfl, (s.handle a).toNat_stateWord⟩

/-- Settles O57: the pool is FREE and the words of the heap buffers (10_state.md R32), so FREE is no more than the pool, and all of it after reset. -/
theorem qfreeReturnsTheFreeWords : Obligations.QfreeReturnsTheFreeWords :=
  ⟨fun _ => ⟨rfl, fun hs => le_of_add_le_left hs.pool.le⟩, fun _ _ => rfl⟩

end Sys2Proof.Machine
end

section
/-!
Status codes and failures (60_exceptions.md): the checks that refuse a command, the ways a command ends, and what each failure leaves.
-/

namespace Sys2Proof.Machine

variable {s t u : State} {i : Instr} {d a b : Index} {n m : Nat} {neg : Bool} {x y : Operand} {c c' : Code}

/-! ## Illegal command words (R211) -/

/-- Settles O9: the step reports the word by a raise, which sets STICKY. -/
theorem illegalCommandWordsOnlyReport : Obligations.IllegalCommandWordsOnlyReport := by
  intro s w hl hr hw hrow hext
  rw [step_of_no_row hl hr hw hrow hext, illegal_respond]

/-! ## The index check and the state checks (R212, R213) -/

/-- The index check or a state check of a command fails. -/
def State.Refuses (s : State) (i : Instr) : Prop :=
  s.badIndex i.handles = true ∨ (∃ j ∈ reads i, s.readable j = false) ∨ ∃ j ∈ overwrites i, s.initialized j = false

theorem State.arithRefused_iff : s.arithRefused d a b = true ↔ s.Refuses (.add d a b) := by
  simp [State.arithRefused, State.Refuses, Instr.handles, reads, overwrites, or_assoc]

theorem State.compareRefused_iff : s.compareRefused a b = true ↔ s.Refuses (.cmp a b) := by
  simp [State.compareRefused, State.Refuses, Instr.handles, reads, overwrites, or_assoc]

theorem State.queryRefused_iff : s.queryRefused a = true ↔ s.Refuses (.qmsb a) := by
  simp [State.queryRefused, State.Refuses, Instr.handles, reads, overwrites]

theorem State.readable_eq_false_iff : s.readable d = false ↔ (s.handle d).kind = .uninit ∨ (s.handle d).indet = true := by
  rw [← Bool.not_eq_true, State.readable_iff, not_and_or, not_not, Bool.not_eq_false]

theorem State.initialized_of_readable (hr : s.readable d = true) : s.initialized d = true :=
  Bool.and_elim_left hr

/-- A check that refuses, before what refuses where the check passes. -/
theorem State.refused_ite {p : Prop} [Decidable p] (ht : ¬p → t = s.raise .invalidArgument) :
    (if p then s.raise .invalidArgument else t) = s.raise .invalidArgument := by
  split
  · rfl
  · exact ht ‹_›

/-- A command whose index check or state check fails is refused. COPY onto itself does not check its destination, but that is the source it reads. -/
theorem exec_of_refuses (h : s.Refuses i) : exec i s = .next (s.raise .invalidArgument) := by
  cases i with
  | init | destroy | grow | qstate =>
    exact congrArg _ (if_pos (by simpa [State.Refuses, Instr.handles, reads, overwrites] using h))
  | zero | seti | incabs =>
    exact congrArg _ (State.refused_ite fun hb => if_pos (by simpa [State.Refuses, Instr.handles, reads, overwrites, hb] using h))
  | copy d a =>
    refine congrArg _ (State.refused_ite fun hb => State.refused_ite fun hr => ?_)
    have hr : s.readable a = true := by simpa using hr
    have hi : s.initialized d = false := by simpa [State.Refuses, Instr.handles, reads, overwrites, hb, hr] using h
    have hda : d ≠ a := by
      rintro rfl
      simp [State.initialized_of_readable hr] at hi
    rw [if_neg hda, hi]
    rfl
  | add | sub | addabs | subabs => exact congrArg _ (if_pos (State.arithRefused_iff.2 h))
  | cmp | cmpabs => exact congrArg _ (if_pos (State.compareRefused_iff.2 h))
  | qmsb | qneg | qcap | qword => exact congrArg _ (if_pos (State.queryRefused_iff.2 h))
  | qfree => simp [State.Refuses, State.badIndex, Instr.handles, reads, overwrites] at h

/-- Settles O25: a handle field of NREG or more names no handle, so the index check fails. -/
theorem indexCheckRefuses : Obligations.IndexCheckRefuses := by
  rintro i s ⟨j, hj, hout⟩
  refine exec_of_refuses (.inl ?_)
  rw [← Bool.not_eq_false, State.badIndex_eq_false_iff]
  intro hnames
  exact absurd (hnames j hj) (by simpa [Config.names] using hout)

/-- Settles O24: the handles named are those of the state checks. -/
theorem stateChecksRefuse : Obligations.StateChecksRefuse := fun _ _ _ h =>
  exec_of_refuses (.inr (by simpa only [State.readable_eq_false_iff, State.initialized_eq_false_iff] using h))

/-! ## The ways a command ends (R214, R216) -/

/-- The record that a command whose growth failed leaves of its destination's record `h` (R214): the fresh one of an UNINIT handle that GROW
initialized, the draw numbered `turn` of a weak failure, else the record as it was. -/
def recordLeft (i : Instr) (cfg : Config) (turn : Nat) (h : Handle) : Handle :=
  match i with
  | .grow _ _ => if h.kind = .uninit then Handle.fresh cfg else h
  | .add _ _ _ => h.drawn turn
  | .sub _ _ _ => h.drawn turn
  | .addabs _ _ _ => h.drawn turn
  | .subabs _ _ _ => h.drawn turn
  | _ => h

/-- What the failed growth of command `i` has left in `t`: FREE, and the record of its destination that the command leaves. -/
def State.FailedToGrow (s : State) (i : Instr) (t : State) : Prop :=
  growing i = true ∧ t.free = s.free ∧
  ∃ turn, ∀ d, i.dest = some d → d.toNat < s.handles.length → t.handle d = recordLeft i s.cfg turn (s.handle d)

/-- How a command ends: a check refuses it, or it answers with OK, or its growth failed. -/
inductive State.Ends (s : State) (i : Instr) : State → Prop where
  | refused (hi : i ≠ .qfree) : s.Ends i (s.raise .invalidArgument)
  | ok (t : State) (r : Word) (hstatus : t.status = s.status) : s.Ends i (t.finish .ok r)
  | outOfMemory (t : State) (hstatus : t.status = s.status) (hfail : s.FailedToGrow i t) : s.Ends i (t.raise .outOfMemory)

namespace State.Ends

theorem ite {p : Prop} [Decidable p] (ht : p → s.Ends i t) (hu : ¬p → s.Ends i u) : s.Ends i (if p then t else u) := by
  split
  · exact ht ‹_›
  · exact hu ‹_›

/-- A check that may refuse. -/
theorem check {p : Prop} [Decidable p] (hi : i ≠ .qfree) (ht : ¬p → s.Ends i t) :
    s.Ends i (if p then s.raise .invalidArgument else t) :=
  .ite (fun _ => .refused hi) ht

/-- A record write after a growth that was met. -/
theorem of_grow_ok (hg : s.grow d n = .ok t) (h : Handle) : s.Ends i ((t.setHandle d h).finish .ok 0) := by
  obtain ⟨-, hstatus, -⟩ := State.grow_frame hg
  exact .ok _ _ hstatus

/-- A growth that failed from a state `u` in which the destination's record is already the one the command leaves. -/
theorem of_grow_oom (hi : growing i = true) (hstatus : u.status = s.status) (hfree : u.free = s.free)
    (hleft : ∀ j, i.dest = some j → j.toNat < s.handles.length → u.handle j = recordLeft i s.cfg 0 (s.handle j))
    (hg : u.grow d n = .oom t) : s.Ends i (t.raise .outOfMemory) := by
  rcases (State.grow_oom hg).1 with rfl | rfl
  · exact .outOfMemory _ hstatus ⟨hi, hfree, 0, hleft⟩
  · exact .outOfMemory _ hstatus ⟨hi, hfree, 0, hleft⟩

/-- The growth step of GROW, from the state itself or from the one in which an UNINIT handle was initialized (40_lifecycle.md R106, R107). -/
theorem growCommand {ext : Word} (hstatus : u.status = s.status) (hfree : u.free = s.free)
    (hleft : d.toNat < s.handles.length → u.handle d = if (s.handle d).kind = .uninit then Handle.fresh s.cfg else s.handle d) :
    s.Ends (.grow d ext) (u.growCommand d n) := by
  rcases u.growCommand_cases d n with ⟨t, hg, he⟩ | ⟨t, hg, he⟩ <;> rw [he]
  · obtain ⟨-, hkept, -⟩ := State.grow_frame hg
    exact .ok _ _ (hkept.trans hstatus)
  · refine .of_grow_oom rfl hstatus hfree ?_ hg
    rintro j ⟨⟩ hindex
    exact hleft hindex

/-- The commands that fail weakly leave a draw (41_arithmetic.md R146). -/
theorem growWrite (hi : growing i = true) (hd : i.dest = some d) (hleft : ∀ turn h, recordLeft i s.cfg turn h = h.drawn turn) :
    s.Ends i (s.growWrite d n m neg) := by
  rcases s.growWrite_cases d n m neg with ⟨t, hg, he⟩ | ⟨t, hg, he⟩ <;> rw [he]
  · exact .of_grow_ok hg _
  · have hdrawn (turn : Nat) : ∀ j, i.dest = some j → j.toNat < s.handles.length →
        (s.setHandle d ((s.handle d).drawn turn)).handle j = recordLeft i s.cfg turn (s.handle j) := by
      intro j hj hindex
      obtain rfl : d = j := Option.some.inj (hd.symm.trans hj)
      rw [hleft, State.handle_setHandle_same _ _ _ hindex]
    rcases (State.grow_oom hg).1 with rfl | rfl
    · exact .outOfMemory _ rfl ⟨hi, rfl, _, hdrawn _⟩
    · exact .outOfMemory _ rfl ⟨hi, rfl, _, hdrawn _⟩

theorem signedSum (hi : growing i = true) (hd : i.dest = some d) (hleft : ∀ turn h, recordLeft i s.cfg turn h = h.drawn turn) :
    s.Ends i (s.signedSum d x y) :=
  .ite (fun _ => .growWrite hi hd hleft) fun _ => .growWrite hi hd hleft

end State.Ends

theorem exec_next_ends (i : Instr) (s : State) : ∃ t, exec i s = .next t ∧ s.Ends i t := by
  cases i with
  | init d => exact ⟨_, rfl, .check nofun fun _ => .check nofun fun _ => .ok _ _ rfl⟩
  | destroy d => exact ⟨_, rfl, .check nofun fun _ => .ok _ _ rfl⟩
  | grow d ext =>
    refine ⟨_, rfl, .check nofun fun _ => .ite (fun hk => .growCommand rfl rfl fun hindex => ?_) fun hk =>
      .check nofun fun _ => .growCommand rfl rfl fun _ => (if_neg (State.kind_of_check hk)).symm⟩
    rw [State.handle_setHandle_same _ _ _ hindex, if_pos (by simpa [State.initialized] using hk)]
  | zero d => exact ⟨_, rfl, .check nofun fun _ => .check nofun fun _ => .ok _ _ rfl⟩
  | seti d ext => exact ⟨_, rfl, .check nofun fun _ => .check nofun fun _ => .ok _ _ rfl⟩
  | copy d a =>
    refine ⟨_, rfl, .check nofun fun _ => .check nofun fun _ => .ite (fun _ => .ok _ _ rfl) fun _ => .check nofun fun _ =>
      .ite (fun _ => .ok _ _ rfl) fun _ => ?_⟩
    split
    · exact .of_grow_oom rfl rfl rfl (fun _ _ _ => rfl) ‹_›
    · exact .of_grow_ok ‹_› _
  | add d a b => exact ⟨_, rfl, .check nofun fun _ => .signedSum rfl rfl fun _ _ => rfl⟩
  | sub d a b => exact ⟨_, rfl, .check nofun fun _ => .signedSum rfl rfl fun _ _ => rfl⟩
  | addabs d a b => exact ⟨_, rfl, .check nofun fun _ => .growWrite rfl rfl fun _ _ => rfl⟩
  | subabs d a b => exact ⟨_, rfl, .check nofun fun _ => .growWrite rfl rfl fun _ _ => rfl⟩
  | incabs d =>
    refine ⟨_, rfl, .check nofun fun _ => .check nofun fun _ => .ite (fun _ => .ok _ _ rfl) fun _ => ?_⟩
    split
    · exact .of_grow_oom rfl rfl rfl (fun _ _ _ => rfl) ‹_›
    · exact .of_grow_ok ‹_› _
  | cmp | cmpabs | qmsb | qneg | qcap | qstate => exact ⟨_, rfl, .check nofun fun _ => .ok _ _ rfl⟩
  | qword a ext => exact ⟨_, rfl, .check nofun fun _ => .check nofun fun _ => .ok _ _ rfl⟩
  | qfree => exact ⟨_, rfl, .ok _ _ rfl⟩

theorem exec_ends (h : exec i s = .next t) : s.Ends i t :=
  of_exec_next (exec_next_ends i s) h

/-! ## Codes (R210, R216, R218) -/

theorem Code.value_inj : c.value = c'.value ↔ c = c' := by
  cases c <;> cases c' <;> decide

/-- A command ends with one code. -/
theorem EndedWith.unique (h : EndedWith t c) (h' : EndedWith t c') : c = c' :=
  Code.value_inj.1 (h.symm.trans h')

/-- A command answers with a code of its row of the status table. -/
theorem State.Ends.answered (h : s.Ends i t) : ∃ c ∈ possibleCodes i, ∃ r, Answered s t c r := by
  cases h with
  | refused hi => exact ⟨.invalidArgument, by cases i <;> simp_all [possibleCodes], 0, rfl, rfl⟩
  | ok t r hstatus => exact ⟨.ok, by cases i <;> simp [possibleCodes], r, by rw [State.finish_status, hstatus], rfl⟩
  | outOfMemory t hstatus hfail =>
    obtain ⟨hgrowing, -⟩ := hfail
    exact ⟨.outOfMemory, by cases i <;> simp_all [possibleCodes, growing], 0, by rw [State.raise_status, hstatus], rfl⟩

theorem Answered.sticky {r : Word} (h : Answered s t c r) :
    statusSticky t.status = (statusSticky s.status || decide (statusCode t.status ≠ Code.ok.value)) := by
  obtain ⟨hstatus, -⟩ := h
  simp only [hstatus, statusSticky_word, statusCode_word, ne_eq, Code.value_inj]

theorem exec_sticky (h : exec i s = .next t) :
    statusSticky t.status = (statusSticky s.status || decide (statusCode t.status ≠ Code.ok.value)) := by
  obtain ⟨c, -, r, hans⟩ := (exec_ends h).answered
  exact hans.sticky

theorem sticky_illegal (s : State) : statusSticky s.illegal.status = true := by
  simp [State.illegal]

/-- Settles O20: a command answers with one code, an illegal word is reported by a raise, and by the cases of a step only these and a reset write STATUS. -/
theorem stickyRecordsEveryFailure : Obligations.StickyRecordsEveryFailure := by
  refine ⟨fun _ _ _ => exec_sticky, fun s => ⟨endedWith_illegal s, sticky_illegal s⟩, fun s w hl hr hw hrow hext =>
    ⟨_, step_of_no_row hl hr hw hrow hext, endedWith_illegal s, sticky_illegal s⟩, fun s t h hr hsticky => ?_, fun s t h hr => ?_⟩
  · obtain ⟨-, ⟨hr', -⟩ | ⟨-, ⟨-, rfl⟩ | ⟨w, -, rfl⟩ | ⟨ws, i, rest, u, -, -, he, rfl⟩ | ⟨ws, e, -, -, rfl⟩⟩⟩ := step_cases h
    · simp [hr] at hr'
    · exact hsticky
    · exact hsticky
    · rw [State.respond_status, exec_sticky he, hsticky, Bool.true_or]
    · exact sticky_illegal s
  · obtain ⟨-, ⟨-, rfl⟩ | ⟨hr', -⟩⟩ := step_cases h
    · simp [statusSticky]
    · simp [hr] at hr'

/-- DESTROY and QSTATE have no check but that of their index. -/
theorem not_wf_of_invalidArgument (hi : (∃ d, i = .destroy d) ∨ ∃ a, i = .qstate a) (h : exec i s = .next t)
    (hend : EndedWith t .invalidArgument) : i.wf s.cfg = false := by
  by_contra hwf
  rw [Bool.not_eq_false] at hwf
  have hok : EndedWith t .ok := by
    rcases hi with ⟨d, rfl⟩ | ⟨a, rfl⟩
    · have hd : s.Names d := by simpa [Instr.wf, Instr.handles] using hwf
      cases (exec_destroy hd).symm.trans h
      exact statusCode_word _ _
    · have ha : s.Names a := by simpa [Instr.wf, Instr.handles] using hwf
      cases (exec_qstate ha).symm.trans h
      exact statusCode_word _ _
  exact absurd (hok.unique hend) (by decide)

/-- Settles O22: a command ends in one of three ways, each with a code of its row. -/
theorem commandsEndWithTheirOwnCodes : Obligations.CommandsEndWithTheirOwnCodes := by
  intro i s
  obtain ⟨t, hexec, hends⟩ := exec_next_ends i s
  obtain ⟨c, hc, r, hans⟩ := hends.answered
  exact ⟨t, hexec, ⟨c, hc, hans.endedWith⟩, fun hi => not_wf_of_invalidArgument hi hexec⟩

/-! ## What each failure leaves (R214) -/

theorem State.Ends.onlyAnswers (h : s.Ends i t) (hend : EndedWith t .invalidArgument) : OnlyAnswers s t := by
  cases h with
  | refused hi => rfl
  | ok t r hstatus => simp [EndedWith, Code.value_inj] at hend
  | outOfMemory t hstatus hfail => simp [EndedWith, Code.value_inj] at hend

theorem State.Ends.failedToGrow (h : s.Ends i t) (hend : EndedWith t .outOfMemory) : s.FailedToGrow i t := by
  cases h with
  | refused hi => simp [EndedWith, Code.value_inj] at hend
  | ok t r hstatus => simp [EndedWith, Code.value_inj] at hend
  | outOfMemory t hstatus hfail => exact hfail

theorem dest_mem_handles (hd : i.dest = some d) : d ∈ i.handles := by
  cases i <;> simp_all [Instr.dest, Instr.handles]

/-- A command that ends with another code than INVALID_ARGUMENT has passed its index check. -/
theorem names_of_exec (h : exec i s = .next t) (hend : EndedWith t c) (hc : c ≠ .invalidArgument) : ∀ j ∈ i.handles, s.Names j := by
  refine State.names_of_check fun hbad => hc ?_
  cases (exec_of_refuses (.inl hbad)).symm.trans h
  exact hend.unique (statusCode_word _ _)

/-- The record a failed growth leaves of the destination, which exists because the index check has passed. -/
theorem handle_of_outOfMemory (hs : s.Inv) (h : exec i s = .next t) (hend : EndedWith t .outOfMemory) (hd : i.dest = some d) :
    ∃ turn, t.handle d = recordLeft i s.cfg turn (s.handle d) := by
  obtain ⟨-, -, turn, hleft⟩ := (exec_ends h).failedToGrow hend
  exact ⟨turn, hleft d hd (hs.index (names_of_exec h hend (by decide) d (dest_mem_handles hd)))⟩

/-- Settles O23: the way a command ended is known by its code, and what a failed growth leaves is read off command by command. -/
theorem failuresLeaveWhatTheTableSays : Obligations.FailuresLeaveWhatTheTableSays := by
  refine ⟨fun s => ⟨rfl, endedWith_illegal s⟩, fun i s t hs h => ⟨(exec_ends h).onlyAnswers, fun hend => ?_⟩⟩
  obtain ⟨-, hfree, -⟩ := (exec_ends h).failedToGrow hend
  have hrecord (d : Index) (hd : i.dest = some d) := handle_of_outOfMemory hs h hend hd
  refine ⟨hfree, exec_keepsOutside h, ?_, ?_, ?_, ?_, ?_⟩
  · rintro d ext rfl hk
    obtain ⟨_, hleft⟩ := hrecord d rfl
    exact hleft.trans (if_neg hk)
  · rintro d ext rfl hk
    obtain ⟨_, hleft⟩ := hrecord d rfl
    exact hleft.trans (if_pos hk)
  · rintro d a rfl
    obtain ⟨_, hleft⟩ := hrecord d rfl
    exact hleft
  · rintro d rfl
    obtain ⟨_, hleft⟩ := hrecord d rfl
    exact hleft
  · rintro d a b (rfl | rfl | rfl | rfl) <;> obtain ⟨turn, hleft⟩ := hrecord d rfl <;> rw [hleft] <;> exact ⟨rfl, rfl, rfl⟩

end Sys2Proof.Machine
end

section
/-!
Reset and the host's transactions (70_reset_and_hazards.md): the state a reset leaves, and what a step does with the words the host presents, whether they
are a command, one that lacks its extension word, or none.
-/

namespace Sys2Proof.Machine

variable {s : State} {i : Instr} {w : Word} {ws rest : List Word}

/-! ## Reset (R240, R242) -/

theorem blockReset_takeReset (hl : s.cfg.Legal) : BlockReset s.cfg s.takeReset := by
  have hfree : s.takeReset.free.toNat = s.cfg.poolWords := by
    simpa [heapTotal_replicate_reset] using (s.inv_takeReset hl).pool
  refine ⟨rfl, List.length_replicate, fun h hh => ?_, hfree, rfl, rfl, rfl⟩
  obtain rfl : h = Handle.reset := List.eq_of_mem_replicate hh
  exact ⟨rfl, rfl, rfl, rfl, rfl, rfl⟩

/-- A block just built stands where a reset would put it. -/
theorem takeReset_resetWith (c : Config) : (State.resetWith c).takeReset = State.resetWith c := rfl

/-! ## What the host presents (R250, R251, R252, R256) -/

/-- Words at the host's pointer that decode to a command are fetched as exactly that command's words. -/
theorem State.fetch_of_decode (hport : ∀ w, s.port ≠ .awaitExt w) (hd : decode (s.program.drop s.pc) = .ok (i, rest)) :
    s.fetch = .command (encode i) := by
  obtain ⟨o, w, ext, ho, hz, rfl, hws⟩ := exists_words_of_decode hd
  have hlen := commandLength_of_ofField ho
  have hword (k : Nat) : s.program[s.pc + k]? = (o.words w ext ++ rest)[k]? := by rw [← hws, List.getElem?_drop]
  have hfirst : s.commandWord? = (o.words w ext ++ rest)[0]? := (s.commandWord?_eq hport).trans (hword 0)
  rw [encode_build ho hz]
  unfold Opcode.words at hword hfirst ⊢
  split at hlen
  next hext =>
    rw [if_pos hext] at hword hfirst ⊢
    exact State.fetch_two hfirst hlen (hword 1)
  next hext =>
    rw [if_neg hext] at hfirst ⊢
    exact State.fetch_one hfirst hlen

theorem State.fetch_of_no_extension (hw : s.commandWord? = some w) (hlen : commandLength w = 2) (hext : s.program[s.pc + 1]? = none) :
    s.fetch = .incomplete w := by
  simp [State.fetch, hw, hlen, hext]

theorem State.fetch_of_no_word (hw : s.commandWord? = none) : s.fetch = .nothing := by
  simp [State.fetch, hw]

/-! ## What a step does with it (R250, R256, R257) -/

theorem step_of_command (hl : s.cfg.Legal) (hr : s.resetRequest = false) (hf : s.fetch = .command ws)
    (hd : decode ws = .ok (i, rest)) : step s = retire ws.length (exec i s) := by
  simp only [step_of_fetch hl hr, hf, hd]

/-- A command word without its extension word is held, whether it was fetched just now or held before. -/
theorem step_of_no_extension (hl : s.cfg.Legal) (hr : s.resetRequest = false) (hw : s.commandWord? = some w)
    (hlen : commandLength w = 2) (hext : s.program[s.pc + 1]? = none) : step s = .next (s.wait w) := by
  simp only [step_of_fetch hl hr, State.fetch_of_no_extension hw hlen hext]

theorem step_of_no_word (hl : s.cfg.Legal) (hr : s.resetRequest = false) (hw : s.commandWord? = none) : step s = .next s.rest := by
  simp only [step_of_fetch hl hr, State.fetch_of_no_word hw]

/-! ## The statements -/

/-- Settles O1: a block just built is one that has taken a reset. -/
theorem resetLeavesTheStateOfTheTable : Obligations.ResetLeavesTheStateOfTheTable :=
  ⟨fun c hc => takeReset_resetWith c ▸ blockReset_takeReset (s := .resetWith c) hc, rfl, by decide⟩

/-- Settles O3: the step takes the reset, whatever the interface held. -/
theorem resetAbandonsTheCommand : Obligations.ResetAbandonsTheCommand :=
  fun s hl hr => ⟨s.takeReset, step_of_reset hl hr, blockReset_takeReset hl⟩

/-- Settles O5: what is fetched are the command's own words, at the pointer or completed by the extension word, and they decode to it. -/
theorem stepRunsTheDecodedCommand : Obligations.StepRunsTheDecodedCommand := by
  refine ⟨fun s i rest hl hr hport hd => ?_, fun s w ext i hl hr hport hlen hext hd => ?_⟩
  · have hown : decode (encode i) = .ok (i, []) := by simpa using decodeOfEncode i []
    have hstep : step s = retire (encode i).length (exec i s) := step_of_command hl hr (State.fetch_of_decode hport hd) hown
    exact ⟨hstep, fun t ht => by rw [hstep, ht]; rfl⟩
  · have hheld : s.commandWord? = some w := by simp [State.commandWord?, hport]
    exact step_of_command hl hr (State.fetch_two hheld hlen hext) hd

/-- Settles O6: a block that waits is again one without the extension word, and a reset leaves the interface idle. -/
theorem twoWordCommandWaits : Obligations.TwoWordCommandWaits := by
  intro s w hl hr hw hlen hext
  refine ⟨step_of_no_extension hl hr hw hlen hext, step_of_no_extension (s := s.wait w) hl hr rfl hlen hext, fun t ht => ?_⟩
  cases (step_of_reset (s := { s.wait w with resetRequest := true }) hl rfl).symm.trans ht
  rfl

/-- Settles O7: past the end of the program there is no command word. -/
theorem finishedProgramLeavesTheBlockIdle : Obligations.FinishedProgramLeavesTheBlockIdle := fun s hl hr hport hend =>
  step_of_no_word hl hr ((s.commandWord?_eq hport).trans (List.getElem?_eq_none hend))

end Sys2Proof.Machine
end
